-- ==== Sys2Proof/Word.lean ====
section
/-! DEFINITION. The widths of brogue-ts CORE (spec/00_scope.md R4) as bit-vector types. -/

namespace Sys2Proof

/-- The 64-bit pattern of a general register, of STATUS, of a seed or of a ROM entry (R4, R10, R20). -/
abbrev XWord := BitVec 64

/-- One 32-bit word of a generator stream (R11). -/
abbrev SWord := BitVec 32

/-- One 32-bit command word (R30). -/
abbrev Cmd := BitVec 32

end Sys2Proof
end

