-- ==== Sys2Proof/Syntax.lean ====
section
/-! DEFINITION. The commands of brogue-ts CORE (spec/30_encoding.md): the one format CMD32 as a record of raw fields,
and the nine commands, one constructor per row of spec/opcode_table.json. -/

namespace Sys2Proof

/-- The number of a general register, `x0`..`x7` (R10, R31). -/
abbrev RegIdx := Fin 8

/-- The number of a generator stream, `S[0]` or `S[1]` (R11, R31). -/
abbrev StreamIdx := Fin 2

/-- The fields of the format CMD32, before any check: every 32-bit word splits into these (R30). -/
structure Cmd32 where
  /-- Bits 5:0, the opcode. -/
  opc : BitVec 6
  /-- Bits 8:6, the destination register. -/
  rd : BitVec 3
  /-- Bits 11:9, the first source register. -/
  rs1 : BitVec 3
  /-- Bits 14:12, the second source register. -/
  rs2 : BitVec 3
  /-- Bit 15, the stream select. -/
  s : BitVec 1
  /-- Bits 31:16, reserved, must be zero. -/
  resv : BitVec 16
  deriving DecidableEq, Repr

/-- A command (R32). The operands are the fields the command uses; a register or stream number outside its range cannot
be written (R31: "no illegal stream index can be encoded"), so every term is a well-formed command. -/
inductive Instr where
  /-- `seed xD, xR, sB`: seed stream `s` with the 64-bit value of `rs1` (R44). -/
  | seed (rd rs1 : RegIdx) (s : StreamIdx)
  /-- `draw xD, sB`: one raw output of stream `s` (R45). -/
  | draw (rd : RegIdx) (s : StreamIdx)
  /-- `range xD, xN, sB`: a uniform integer in `[0, n)`, `n` in `rs1` (R46). -/
  | range (rd rs1 : RegIdx) (s : StreamIdx)
  /-- `irange xD, xL, xU, sB`: a uniform integer in `[lower, upper]` (R47). -/
  | irange (rd rs1 rs2 : RegIdx) (s : StreamIdx)
  /-- `fmul xD, xA, xB`: fixed-point product (R51). -/
  | fmul (rd rs1 rs2 : RegIdx)
  /-- `fdiv xD, xA, xB`: fixed-point quotient (R52). -/
  | fdiv (rd rs1 rs2 : RegIdx)
  /-- `fround xD, xA`: nearest integer, half away from zero (R53). -/
  | fround (rd rs1 : RegIdx)
  /-- `fsqrt xD, xA`: fixed-point square root (R56). -/
  | fsqrt (rd rs1 : RegIdx)
  /-- `fpow xD, xA, xE`: fixed-point base to an integer exponent (R58). -/
  | fpow (rd rs1 rs2 : RegIdx)
  deriving DecidableEq, Repr

/-- The stream a command names, if its format has one (R32 "fields used"). -/
def Instr.stream? : Instr → Option StreamIdx
  | .seed _ _ s => some s
  | .draw _ s => some s
  | .range _ _ s => some s
  | .irange _ _ _ s => some s
  | .fmul _ _ _ => none
  | .fdiv _ _ _ => none
  | .fround _ _ => none
  | .fsqrt _ _ => none
  | .fpow _ _ _ => none

/-- The register a command writes its one result to (R10). -/
def Instr.dest : Instr → RegIdx
  | .seed rd _ _ => rd
  | .draw rd _ => rd
  | .range rd _ _ => rd
  | .irange rd _ _ _ => rd
  | .fmul rd _ _ => rd
  | .fdiv rd _ _ => rd
  | .fround rd _ => rd
  | .fsqrt rd _ => rd
  | .fpow rd _ _ => rd

end Sys2Proof
end

