-- ==== Sys2Proof/WellFormed.lean ====
section
/-! DEFINITION. Which raw command words are commands (spec/30_encoding.md R32, R33). A term of `Instr` is
well-formed by its type; what can be ill-formed is a word, that is its CMD32 fields, and R33 names three ways. Written
from R32's column "fields used", apart from the decoder, which must agree with it. -/

namespace Sys2Proof

/-- One row of R32's table of opcodes: which of the fields `rs1`, `rs2`, `s` the opcode uses (`rd` is used by all). -/
structure OpcodeUse where
  opc : BitVec 6
  rs1 : Bool
  rs2 : Bool
  s : Bool
  deriving DecidableEq, Repr

/-- R32's table of opcodes, in its order. -/
def opcodeUses : List OpcodeUse :=
  [⟨0x01, true, false, true⟩, ⟨0x02, false, false, true⟩, ⟨0x03, true, false, true⟩, ⟨0x04, true, true, true⟩,
   ⟨0x10, true, true, false⟩, ⟨0x11, true, true, false⟩, ⟨0x12, true, false, false⟩, ⟨0x13, true, false, false⟩,
   ⟨0x14, true, true, false⟩]

/-- R33 (a): `opc` is one of the nine values of R32. -/
def Cmd32.opcodeDefined (f : Cmd32) : Bool := opcodeUses.any fun u => u.opc == f.opc

/-- R33 (b): every bit of `resv` is 0. -/
def Cmd32.reservedZero (f : Cmd32) : Bool := f.resv == 0

/-- R33 (c): every field the opcode does not use is zero. -/
def Cmd32.unusedZero (f : Cmd32) : Bool :=
  opcodeUses.all fun u =>
    u.opc != f.opc || ((u.rs1 || f.rs1 == 0) && (u.rs2 || f.rs2 == 0) && (u.s || f.s == 0))

/-- A word is a command when none of R33's three objections holds. -/
def Cmd32.wellFormed (f : Cmd32) : Bool := f.opcodeDefined && f.reservedZero && f.unusedZero

end Sys2Proof
end

