-- ==== Sys2Proof/Decode.lean ====
section
/-! DEFINITION. Decoding and encoding of command words (spec/30_encoding.md R30 to R34). The decoder is total over all
2^32 words and rejects by name. -/

namespace Sys2Proof

/-- Split a command word into the fields of CMD32 (R30). -/
def fieldsOf (w : Cmd) : Cmd32 where
  opc := w.extractLsb' 0 6
  rd := w.extractLsb' 6 3
  rs1 := w.extractLsb' 9 3
  rs2 := w.extractLsb' 12 3
  s := w.extractLsb' 15 1
  resv := w.extractLsb' 16 16

/-- Join the fields of CMD32 into a command word: R30's pattern from bit 31 down to bit 0. -/
def wordOf (f : Cmd32) : Cmd := f.resv ++ f.s ++ f.rs2 ++ f.rs1 ++ f.rd ++ f.opc

/-- Why a word is illegal (R33 (a), (b), (c)). All three raise the one cause ILLEGAL; the name only tells a reader which
objection the decoder met first (log 15). -/
inductive DecodeError where
  /-- R33 (a): `opc` is none of the nine opcodes. -/
  | undefinedOpcode
  /-- R33 (b): a reserved bit 31:16 is 1. -/
  | reservedBits
  /-- R33 (c): a field the opcode does not use is not zero. -/
  | unusedField
  deriving DecidableEq, Repr

/-- The register number a 3-bit field holds (R31). -/
def regOf (b : BitVec 3) : RegIdx := ⟨b.toNat, b.isLt⟩

/-- The stream number the 1-bit field holds (R31). -/
def streamOf (b : BitVec 1) : StreamIdx := ⟨b.toNat, b.isLt⟩

/-- Answer `i` when the fields its opcode does not use are zero, and reject the word otherwise (R33 (c)). -/
def whenUnusedZero (unusedZero : Bool) (i : Instr) : Except DecodeError Instr :=
  if unusedZero then .ok i else .error .unusedField

/-- Decode the fields of a word whose reserved bits are zero (R32, R33 (a), (c)). -/
def decodeFields (f : Cmd32) : Except DecodeError Instr :=
  match f.opc.toNat with
  | 0x01 => whenUnusedZero (f.rs2 == 0) (.seed (regOf f.rd) (regOf f.rs1) (streamOf f.s))
  | 0x02 => whenUnusedZero (f.rs1 == 0 && f.rs2 == 0) (.draw (regOf f.rd) (streamOf f.s))
  | 0x03 => whenUnusedZero (f.rs2 == 0) (.range (regOf f.rd) (regOf f.rs1) (streamOf f.s))
  | 0x04 => .ok (.irange (regOf f.rd) (regOf f.rs1) (regOf f.rs2) (streamOf f.s))
  | 0x10 => whenUnusedZero (f.s == 0) (.fmul (regOf f.rd) (regOf f.rs1) (regOf f.rs2))
  | 0x11 => whenUnusedZero (f.s == 0) (.fdiv (regOf f.rd) (regOf f.rs1) (regOf f.rs2))
  | 0x12 => whenUnusedZero (f.rs2 == 0 && f.s == 0) (.fround (regOf f.rd) (regOf f.rs1))
  | 0x13 => whenUnusedZero (f.rs2 == 0 && f.s == 0) (.fsqrt (regOf f.rd) (regOf f.rs1))
  | 0x14 => whenUnusedZero (f.s == 0) (.fpow (regOf f.rd) (regOf f.rs1) (regOf f.rs2))
  | _ => .error .undefinedOpcode

/-- Decode one command word (R33, R34). -/
def decode (w : Cmd) : Except DecodeError Instr :=
  if (fieldsOf w).resv = 0 then decodeFields (fieldsOf w) else .error .reservedBits

/-- The host's question about the decoder: the instruction read from `nbits` bits of value `w`, bit 0 the least
significant, every bit of the command word above them 0. -/
def decodeTableWord (nbits w : Nat) : Option Instr :=
  match decode (BitVec.ofNat 32 (w % 2 ^ nbits)) with
  | .ok i => some i
  | .error _ => none

/-- The 3-bit field of a register number (R31). -/
def regField (r : RegIdx) : BitVec 3 := BitVec.ofNat 3 r.val

/-- The 1-bit field of a stream number (R31). -/
def streamField (k : StreamIdx) : BitVec 1 := BitVec.ofNat 1 k.val

/-- The fields of a command's word: its opcode, its operands, and zero in every field it does not use (R32, R33). -/
def encodeFields : Instr → Cmd32
  | .seed rd rs1 s => ⟨0x01, regField rd, regField rs1, 0, streamField s, 0⟩
  | .draw rd s => ⟨0x02, regField rd, 0, 0, streamField s, 0⟩
  | .range rd rs1 s => ⟨0x03, regField rd, regField rs1, 0, streamField s, 0⟩
  | .irange rd rs1 rs2 s => ⟨0x04, regField rd, regField rs1, regField rs2, streamField s, 0⟩
  | .fmul rd rs1 rs2 => ⟨0x10, regField rd, regField rs1, regField rs2, 0, 0⟩
  | .fdiv rd rs1 rs2 => ⟨0x11, regField rd, regField rs1, regField rs2, 0, 0⟩
  | .fround rd rs1 => ⟨0x12, regField rd, regField rs1, 0, 0, 0⟩
  | .fsqrt rd rs1 => ⟨0x13, regField rd, regField rs1, 0, 0, 0⟩
  | .fpow rd rs1 rs2 => ⟨0x14, regField rd, regField rs1, regField rs2, 0, 0⟩

/-- The one word of a command (R30, R34, R35). -/
def encode (i : Instr) : Cmd := wordOf (encodeFields i)

/-- R32's "match" of a command's row. -/
def matchOf : Instr → Cmd
  | .seed _ _ _ => 0x00000001
  | .draw _ _ => 0x00000002
  | .range _ _ _ => 0x00000003
  | .irange _ _ _ _ => 0x00000004
  | .fmul _ _ _ => 0x00000010
  | .fdiv _ _ _ => 0x00000011
  | .fround _ _ => 0x00000012
  | .fsqrt _ _ => 0x00000013
  | .fpow _ _ _ => 0x00000014

/-- R32's "mask" of a command's row. -/
def maskOf : Instr → Cmd
  | .seed _ _ _ => 0xFFFF703F
  | .draw _ _ => 0xFFFF7E3F
  | .range _ _ _ => 0xFFFF703F
  | .irange _ _ _ _ => 0xFFFF003F
  | .fmul _ _ _ => 0xFFFF803F
  | .fdiv _ _ _ => 0xFFFF803F
  | .fround _ _ => 0xFFFFF03F
  | .fsqrt _ _ => 0xFFFFF03F
  | .fpow _ _ _ => 0xFFFF803F

/-- R32's table of exact patterns as (match, mask) pairs, in its order. -/
def opcodePatterns : List (Cmd × Cmd) :=
  [(0x00000001, 0xFFFF703F), (0x00000002, 0xFFFF7E3F), (0x00000003, 0xFFFF703F), (0x00000004, 0xFFFF003F),
   (0x00000010, 0xFFFF803F), (0x00000011, 0xFFFF803F), (0x00000012, 0xFFFFF03F), (0x00000013, 0xFFFFF03F),
   (0x00000014, 0xFFFF803F)]

end Sys2Proof
end

