-- ==== Sys2Proof/Config.lean ====
section
/-! DEFINITION. The implementation parameters of spec/00_scope.md R4: the values the source fixes, and the defaults of
the two OPEN parameters (SQRT_ROM, SQRT_BRACKET), which the machine takes from its state. Nothing of the spec is left
without a value, so no constant here is opaque. -/

namespace Sys2Proof

/-- One first bracket `(lower, upper)` of the bisection (R55). A bracket around a root, `lower` below it and `upper` not,
has a positive width, and only such a one can be given (log 14). -/
structure Bracket where
  lower : Nat
  upper : Nat
  width_pos : lower < upper
  deriving DecidableEq, Repr

namespace Config

/-- `SEED_CONST`, the initial word `a` of a seeded stream (R4, R42). -/
def seedConst : SWord := 0xF1EA5EED

/-- `WARMUP`, the number of discarded steps at seeding (R4, R42). -/
def warmup : Nat := 20

/-- `ROT1`, the rotation of `b` in the step (R4, R41). -/
def rot1 : Nat := 27

/-- `ROT2`, the rotation of `c` in the step (R4, R41). -/
def rot2 : Nat := 17

/-- `ONE = 2^16`, the scale of a Q16.16 value (`FBITS = 16`; R4, R7). -/
def one : Int := 65536

/-- `RANGE_MAX = 2^32 - 1`, the largest legal draw interval, and the ceiling the divisor is taken of (R4, R43). -/
def rangeMax : Nat := 0xFFFFFFFF

/-- How many states one stream has: four words of 32 bits. A rejection loop that accepts at all accepts within this
many attempts, since the stream's states can only repeat (R49; log 4). -/
def streamStates : Nat := 2 ^ 128

/-- The default table of the OPEN parameter `SQRT_ROM`, row by row as R21 prints it (log 5). -/
def sqrtRomTable : List Nat :=
  [0, 65536, 92682, 113512, 131072, 146543, 160530, 173392] ++
  [185364, 196608, 207243, 217358, 227023, 236293, 245213, 253820] ++
  [262144, 270212, 278046, 285665, 293086, 300324, 307391, 314300] ++
  [321060, 327680, 334169, 340535, 346784, 352922, 358955, 364889] ++
  [370728, 376476, 382137, 387716, 393216, 398640, 403991, 409272] ++
  [414486, 419635, 424722, 429748, 434717, 439629, 444487, 449292] ++
  [454047, 458752, 463410, 468021, 472587, 477109, 481589, 486028] ++
  [490427, 494786, 499107, 503392, 507640, 511853, 516031, 520176] ++
  [524288, 528368, 532417, 536435, 540424, 544383, 548314, 552216] ++
  [556091, 559940, 563762, 567558, 571330, 575076, 578798, 582497] ++
  [586172, 589824, 593454, 597061, 600647, 604212, 607756, 611279] ++
  [614782, 618265, 621729, 625174, 628599, 632006, 635395, 638766] ++
  [642119, 645455, 648773, 652075, 655360, 658629, 661881, 665118] ++
  [668339, 671544, 674734, 677910, 681070, 684216, 687347, 690465] ++
  [693568, 696657, 699733, 702795, 705844, 708880, 711903, 714913] ++
  [717911, 720896, 723869, 726829, 729778, 732715, 735640, 738553]

/-- The default `SQRT_ROM` as 128 entries of 64 bits (R20, R21). -/
def sqrtRom : Vector XWord 128 := ⟨(sqrtRomTable.map (BitVec.ofNat 64)).toArray, rfl⟩

/-- The default of the OPEN parameter `SQRT_BRACKET`: the first bisection bracket for an input whose most significant
bit stands at position `m` (R55; log 6). -/
def sqrtBracket (m : Nat) : Bracket where
  lower := 2 ^ ((m + 14) / 2)
  upper := 2 ^ ((m + 17) / 2)
  width_pos := Nat.pow_lt_pow_right (by decide) (by omega)

/-- The default `SQRT_BRACKET` as the table of its brackets for `m` from 1 to 64, the positions a register's magnitude can
have (R54, R55). -/
def sqrtBrackets : Vector Bracket 64 := ⟨((List.range 64).map fun i => sqrtBracket (i + 1)).toArray, rfl⟩

end Config

end Sys2Proof
end

