-- ==== Sys2Proof/Machine/State.lean ====
section
/-! DEFINITION. The machine's state as plain data (spec/10_state.md R10 to R19), the host's operations that are its
input, the two reason types of a stop, and the state after reset (spec/70_reset_and_hazards.md R70). -/

namespace Sys2Proof.Machine

/-- One generator stream: "the entire current state is exactly these four words" (R11). -/
structure GenStream where
  a : SWord
  b : SWord
  c : SWord
  d : SWord
  deriving DecidableEq, Repr

/-- The name of one word of a stream, as `HostReadStream` takes it (R16). -/
inductive StreamWord where
  | a
  | b
  | c
  | d
  deriving DecidableEq, Repr

/-- The six operations of the host port with their arguments (R16). An index outside its range cannot be presented. -/
inductive HostOp where
  /-- `HostWriteReg(i, v)`. -/
  | writeReg (i : RegIdx) (v : XWord)
  /-- `HostReadReg(i)`. -/
  | readReg (i : RegIdx)
  /-- `HostReadStatus()`. -/
  | readStatus
  /-- `HostReadStream(s, w)`. -/
  | readStream (s : StreamIdx) (w : StreamWord)
  /-- `HostIssue(w)`: the command word `w` arrives (R17). -/
  | issue (w : Cmd)
  /-- `HostReset()`. -/
  | reset
  deriving DecidableEq, Repr

/-- The causes of the block's own faults (R60). Such a fault is a next state of the model, not a stop. -/
inductive Cause where
  /-- Code 1: the word is no command (R33). -/
  | illegal
  /-- Code 2: a draw from a stream with `SEEDED[s] = 0`. -/
  | unseeded
  /-- Code 3: a draw interval outside `[1, 2^32 - 1]`. -/
  | rangeArg
  /-- Code 4: FDIV by zero. -/
  | divZero
  /-- Code 5: a fixed-point result outside 64 bits. -/
  | overflow
  deriving DecidableEq, Repr

/-- Everything the spec gives the block, and the host's side of the port. -/
structure State where
  /-- The general registers `x0`..`x7` (R10). -/
  x : Vector XWord 8
  /-- The generator streams `S[0]`, `S[1]` (R11). -/
  streams : Vector GenStream 2
  /-- `SEEDED[0]`, `SEEDED[1]` (R12). -/
  seeded : Vector Bool 2
  /-- `STATUS.FAULT` (R14). -/
  fault : Bool
  /-- `STATUS.CAUSE` (R14). -/
  cause : BitVec 4
  /-- `STATUS.FCMD` (R14). -/
  fcmd : Cmd
  /-- The constant square-root ROM, entry by entry: the OPEN parameter `SQRT_ROM` (R19, R20, R21; log 5). -/
  rom : Vector XWord 128
  /-- The block's first bisection brackets for `msbpos` 1 to 64, in that order: the OPEN parameter `SQRT_BRACKET`, constant
  like the ROM (R4, R55; log 6). -/
  brackets : Vector Bracket 64
  /-- The model's own field: the host operations not yet performed, oldest first (R16, R17; log 1). -/
  port : List HostOp
  /-- The model's own field: what the latest host operation returned to the host (R16; log 2). -/
  reply : Option XWord
  deriving DecidableEq, Repr

/-- Why a step stops with a fault. -/
inductive Fault where
  /-- Raised by RANGE and IRANGE when no attempt of the rejection loop is ever accepted: the command never completes and
  `HostIssue` never returns (R17, R49; spec/93_implementation_defined.md U5 "stuck"). Safe: the hardware reaches no
  later state, and no claim about one can be proved (log 4). -/
  | hang
  deriving DecidableEq, Repr

/-- Why a step is refused. -/
inductive Refusal where
  /-- Raised by an arm of `exec` whose command has no meaning yet. No arm raises it: every command has its meaning.
  Safe. -/
  | notModelled (mnemonic : String)
  deriving DecidableEq, Repr

/-- The machine right after power-on (R70): every register, stream word, SEEDED bit and STATUS field 0, the ROM
and the brackets the defaults (R21, R55; log 5, log 6), and nothing at the port (log 17). -/
def State.reset : State where
  x := Vector.replicate 8 0
  streams := Vector.replicate 2 ⟨0, 0, 0, 0⟩
  seeded := Vector.replicate 2 false
  fault := false
  cause := 0
  fcmd := 0
  rom := Config.sqrtRom
  brackets := Config.sqrtBrackets
  port := []
  reply := none

end Sys2Proof.Machine
end

