-- ==== Sys2Proof/Machine/Ops.lean ====
section
/-! DEFINITION. The named operations over the state: registers, streams, ROM, taking a fault (spec/60_exceptions.md
R62) and reset, the only way back from one (R64, R70). Every read and write of the machine goes through these. -/

namespace Sys2Proof.Machine

/-- `x[i]` (R5, R10). -/
def State.reg (s : State) (i : RegIdx) : XWord := s.x[i.val]

/-- `x[i] <- v` (R5, R10). -/
def State.setReg (s : State) (i : RegIdx) (v : XWord) : State := { s with x := s.x.set i.val v }

/-- `S[k]` (R11). -/
def State.stream (s : State) (k : StreamIdx) : GenStream := s.streams[k.val]

/-- `S[k] <- st`, all four words together (R11, R24). -/
def State.setStream (s : State) (k : StreamIdx) (st : GenStream) : State :=
  { s with streams := s.streams.set k.val st }

/-- `SEEDED[k]` (R12). -/
def State.isSeeded (s : State) (k : StreamIdx) : Bool := s.seeded[k.val]

/-- `SEEDED[k] <- 1`; no command clears it (R12). -/
def State.markSeeded (s : State) (k : StreamIdx) : State := { s with seeded := s.seeded.set k.val true }

/-- One word of a stream by name (R16, R18). -/
def GenStream.word (st : GenStream) : StreamWord → SWord
  | .a => st.a
  | .b => st.b
  | .c => st.c
  | .d => st.d

/-- `ROMRead(k)` (R22): entry `k`, a 64-bit value. -/
def romRead (rom : Vector XWord 128) (k : Fin 128) : XWord := rom[k.val]

/-- `SQRT_BRACKET(m)` for `m` in 1..64 (R4, R55). -/
def bracketRead (brackets : Vector Bracket 64) (m : Nat) : Bracket := brackets[(m - 1) % 64]

/-- The code of a cause in `STATUS.CAUSE` (R60). -/
def Cause.code : Cause → BitVec 4
  | .illegal => 1
  | .unseeded => 2
  | .rangeArg => 3
  | .divZero => 4
  | .overflow => 5

/-- `raise`: a command with word `w` faults (R62). FAULT, CAUSE and FCMD are written together and nothing else
changes. -/
def State.raise (s : State) (c : Cause) (w : Cmd) : State := { s with fault := true, cause := c.code, fcmd := w }

/-- The state with `r` as what the latest host operation returned (R16; log 2). -/
def State.withReply (s : State) (r : Option XWord) : State := { s with reply := r }

/-- The state with `ops` as the host operations still to perform (R17; log 1). -/
def State.withPort (s : State) (ops : List HostOp) : State := { s with port := ops }

/-- The reset of R70, the only way to clear a fault (R64): every field of the block at its reset value, the ROM and
the brackets not changed (R4, R22). The operations the host has still to send stay the host's (log 16). -/
def State.clear (s : State) : State := { State.reset with rom := s.rom, brackets := s.brackets, port := s.port }

end Sys2Proof.Machine
end

