-- ==== Sys2Proof/Machine/Operands.lean ====
section
/-! DEFINITION. How a register pattern is read as a number and a number written as a pattern (spec/00_scope.md R5 to
R8), and the result write of the fixed-point commands (spec/41_fixpt.md R50). The block has no other operand form:
every operand is a register (R31). -/

namespace Sys2Proof.Machine

/-- `uval(p)`: the pattern as an unsigned integer in `[0, 2^64)` (R6). -/
def uval (p : XWord) : Nat := p.toNat

/-- `sval(p)`: the pattern as a two's complement integer in `[-2^63, 2^63)` (R6). -/
def sval (p : XWord) : Int := p.toInt

/-- The pattern `v mod 2^64` of a number (R5, R6). -/
def pattern (v : Int) : XWord := BitVec.ofInt 64 v

/-- `fits64(v)`: `-2^63 <= v <= 2^63 - 1` (R6). -/
def fits64 (v : Int) : Bool := decide (-9223372036854775808 ≤ v) && decide (v ≤ 9223372036854775807)

/-- `tdiv(a, b)`: the quotient truncated toward zero, for `b ≠ 0` (R8). -/
def tdiv (a b : Int) : Int := a.tdiv b

/-- `trem(a, b) = a - b * tdiv(a, b)`, with the sign of `a` (R8). -/
def trem (a b : Int) : Int := a.tmod b

/-- `x[rs]` read as `sval` (R50). -/
def State.regS (s : State) (rs : RegIdx) : Int := sval (s.reg rs)

/-- `x[rd] <- v` for a number `v` (R6). -/
def State.setInt (s : State) (rd : RegIdx) (v : Int) : State := s.setReg rd (pattern v)

/-- The end of a fixed-point command (R50): a result that does not fit 64 bits raises OVERFLOW and writes nothing, any
other is written. `none` stands for a result that already overflowed on the way (R57). -/
def finish (s : State) (rd : RegIdx) (w : Cmd) : Option Int → Host.Outcome State Fault Refusal
  | some v => if fits64 v then .next (s.setInt rd v) else .next (s.raise .overflow w)
  | none => .next (s.raise .overflow w)

end Sys2Proof.Machine
end

