-- ==== Sys2Proof/Machine/Fixpt.lean ====
section
/-! DEFINITION. The fixed-point unit (spec/41_fixpt.md): multiply, divide, round, square root and power over exact
integers, and the meanings of FMUL, FDIV, FROUND, FSQRT and FPOW. -/

namespace Sys2Proof.Machine

/-- `Mul(x, y)` (R51). -/
def fixMul (x y : Int) : Int := tdiv (x * y) Config.one

/-- `Div(x, y)` for `y ≠ 0` (R52). -/
def fixDiv (x y : Int) : Int := tdiv (x * Config.one) y

/-- `Round(x)`: the nearest integer, half away from zero, not scaled (R53). -/
def fixRound (x : Int) : Int :=
  let q := tdiv x Config.one
  let r := trem x Config.one
  if 32768 ≤ r ∨ r ≤ -32768 then q + x.sign else q

/-- `msbpos(v)` for `v > 0`: how many bits `v` has (R54). -/
def msbpos (v : Nat) : Nat := v.log2 + 1

/-- The bisection loop of `Sqrt` (R55) for the input `v`, with at most `fuel` midpoints: `cand` is the last midpoint
computed. A bracket shrinks by at least one at every midpoint, so `upper - lower` midpoints always suffice (log 14). -/
def bisect (v : Int) : Nat → Int → Int → Int → Int
  | 0, _, _, cand => cand
  | fuel + 1, lower, upper, cand =>
    if upper = lower + 1 then cand
    else
      let mid := (upper + lower) / 2
      let f := fixMul mid mid - v
      if f = 0 then mid
      else if 0 < f then bisect v fuel lower mid mid
      else bisect v fuel mid upper mid

/-- R55's table test: `v` is `k * 2^16` with `k` in 0..127. -/
def isTableInput (v : Nat) : Bool := v &&& (127 <<< 16) == v

/-- The ROM entry a table input selects, `v >> 16` (R22, R55). -/
def tableIndex (v : Nat) : Fin 128 := ⟨(v >>> 16) % 128, Nat.mod_lt _ (by decide)⟩

/-- `Sqrt(v)` for `v >= 0` (R55), with the parameters `SQRT_ROM` and `SQRT_BRACKET` as arguments (R4). -/
def sqrtNonneg (bracket : Nat → Bracket) (rom : Vector XWord 128) (v : Nat) : Int :=
  if isTableInput v then sval (romRead rom (tableIndex v))
  else
    let b := bracket (msbpos v)
    bisect v (b.upper - b.lower) b.lower b.upper 0

/-- `Sqrt(v)` for any integer (R55): a negative input by sign-flip symmetry. -/
def fixSqrt (bracket : Nat → Bracket) (rom : Vector XWord 128) (v : Int) : Int :=
  if v < 0 then -sqrtNonneg bracket rom (-v).toNat else sqrtNonneg bracket rom v.toNat

/-- One accumulation step of `Pow` on the pair (running result, rounding-error term), or `none` when the new running
result does not fit 64 bits (R57). -/
def powNext (base : Int) (p : Int × Int) : Option (Int × Int) :=
  let t := p.1 * base + tdiv (p.2 * base) Config.one
  let res := tdiv t Config.one
  if fits64 res then some (res, trem t Config.one) else none

/-- `e` accumulation steps of `Pow` from the pair `p`, or `none` when one of them overflows (R57). Where two steps lead
back to the pair they started from, no later step gives anything but these two pairs, and the loop stops early with the
one that stands after the steps left, as R58 allows; only so can an exponent near 2^63 be evaluated (log 13). -/
def powLoop (base : Int) : Nat → Int × Int → Option (Int × Int)
  | 0, p => some p
  | e + 1, p =>
    match powNext base p with
    | none => none
    | some q =>
      if powNext base q = some p then some (if e % 2 = 0 then q else p)
      else powLoop base e q

/-- The base and the number of steps the accumulation runs with: the reciprocal and `-e` for a negative exponent
(R57). -/
def powOperands (base e : Int) : Int × Nat :=
  if e < 0 then (fixDiv Config.one base, (-e).toNat) else (base, e.toNat)

/-- `Pow(base, e)` (R57) up to the last OVERFLOW check, which `finish` makes; `none` is an OVERFLOW on the way. -/
def fixPow (base e : Int) : Option Int :=
  if base = 0 then some 0
  else
    let p := powOperands base e
    match powLoop p.1 p.2 (Config.one, 0) with
    | some (res, err) => some (res + fixRound err)
    | none => none

/-- FMUL (R51): fixed-point product. -/
def execFmul (rd rs1 rs2 : RegIdx) (s : State) : Host.Outcome State Fault Refusal :=
  finish s rd (encode (.fmul rd rs1 rs2)) (some (fixMul (s.regS rs1) (s.regS rs2)))

/-- FDIV (R52): fixed-point quotient, DIVZERO tested before OVERFLOW. -/
def execFdiv (rd rs1 rs2 : RegIdx) (s : State) : Host.Outcome State Fault Refusal :=
  if s.regS rs2 = 0 then .next (s.raise .divZero (encode (.fdiv rd rs1 rs2)))
  else finish s rd (encode (.fdiv rd rs1 rs2)) (some (fixDiv (s.regS rs1) (s.regS rs2)))

/-- FROUND (R53): the nearest integer, a plain integer that always fits. -/
def execFround (rd rs1 : RegIdx) (s : State) : Host.Outcome State Fault Refusal :=
  .next (s.setInt rd (fixRound (s.regS rs1)))

/-- FSQRT (R56): fixed-point square root with the block's ROM and brackets (R4; log 5, log 6). DESIGN CHOICE, unsafe
(log 18): a root that does not fit 64 bits, which only a ROM entry of -2^63 or a bracket that encloses no root can give, is
written modulo 2^64 (R6, R56) and raises no OVERFLOW (R50). -/
def execFsqrt (rd rs1 : RegIdx) (s : State) : Host.Outcome State Fault Refusal :=
  .next (s.setInt rd (fixSqrt (bracketRead s.brackets) s.rom (s.regS rs1)))

/-- FPOW (R58): integer power of a fixed-point base. -/
def execFpow (rd rs1 rs2 : RegIdx) (s : State) : Host.Outcome State Fault Refusal :=
  finish s rd (encode (.fpow rd rs1 rs2)) (fixPow (s.regS rs1) (s.regS rs2))

end Sys2Proof.Machine
end

