-- ==== Sys2Proof/Machine/Generator.lean ====
section
/-! DEFINITION. The generator engine (spec/40_generator.md): the step, seeding, the ranged draw, and the meanings of
SEED, DRAW, RANGE and IRANGE. -/

namespace Sys2Proof.Machine

/-- `rotl32(x, k)` for `0 < k < 32` (R40). -/
def rotl32 (x : SWord) (k : Nat) : SWord := (x <<< k) ||| (x >>> (32 - k))

/-- `Step` (R41): the new state of a stream and its output word, which is the new `d`. -/
def genStep (st : GenStream) : GenStream × SWord :=
  let e := st.a - rotl32 st.b Config.rot1
  let a' := st.b ^^^ rotl32 st.c Config.rot2
  let b' := st.c + st.d
  let c' := st.d + e
  let d' := e + a'
  (⟨a', b', c', d'⟩, d')

/-- Step a stream `k` times and discard the outputs (R42). -/
def discard : Nat → GenStream → GenStream
  | 0, st => st
  | k + 1, st => discard k (genStep st).1

/-- The four words a seed is spread over before the warm-up (R42): the low 32 bits into `b`, `c` and `d`, the high 32
bits XORed into `c`. -/
def seedStart (seed : XWord) : GenStream :=
  let lo := seed.extractLsb' 0 32
  let hi := seed.extractLsb' 32 32
  ⟨Config.seedConst, lo, lo ^^^ hi, lo⟩

/-- `SeedState(seed)`: the warmed-up state (R42). -/
def seedState (seed : XWord) : GenStream := discard Config.warmup (seedStart seed)

/-- The loop of `RangedCore` (R43) with at most `fuel` attempts: step, divide the output by `div`, accept a quotient below
`n`. Every attempt, accepted or not, advances the state by one step. -/
def rangedSearch (n div : Nat) : Nat → GenStream → Option (Nat × GenStream)
  | 0, _ => none
  | fuel + 1, st =>
    let out := genStep st
    let r := out.2.toNat / div
    if r < n then some (r, out.1) else rangedSearch n div fuel out.1

/-- `RangedCore(st, n)` for `1 <= n <= 2^32 - 1` (R43). The loop has no bound; one attempt per possible state decides
whether it ends, so `none` means that no attempt is ever accepted (R49; log 4). For `n = 0`, which no command passes on,
none is, and nothing is searched. -/
def rangedCore (st : GenStream) (n : Nat) : Option (Nat × GenStream) :=
  if n = 0 then none else rangedSearch n (Config.rangeMax / n) Config.streamStates st

/-- The part RANGE and IRANGE share (R46, R47, R61): check the interval, then the seeding, then draw `r` from stream `k`
and write `base + r`. A loop that never ends leaves the command incomplete (R49). -/
def rangedCommand (rd : RegIdx) (k : StreamIdx) (base n : Int) (w : Cmd) (s : State) :
    Host.Outcome State Fault Refusal :=
  if n ≤ 0 ∨ (Config.rangeMax : Int) < n then .next (s.raise .rangeArg w)
  else if s.isSeeded k = false then .next (s.raise .unseeded w)
  else match rangedCore (s.stream k) n.toNat with
    | some (r, st) => .next ((s.setStream k st).setInt rd (base + r))
    | none => .fault .hang

/-- SEED (R44): a non-zero seed initialises the stream, the sentinel 0 does not; the result is the seed itself. -/
def execSeed (rd rs1 : RegIdx) (k : StreamIdx) (s : State) : Host.Outcome State Fault Refusal :=
  let seed := s.reg rs1
  if uval seed = 0 then .next (s.setReg rd seed)
  else .next (((s.setStream k (seedState seed)).markSeeded k).setReg rd seed)

/-- DRAW (R45): one raw output, zero-extended. -/
def execDraw (rd : RegIdx) (k : StreamIdx) (s : State) : Host.Outcome State Fault Refusal :=
  if s.isSeeded k = false then .next (s.raise .unseeded (encode (.draw rd k)))
  else
    let out := genStep (s.stream k)
    .next ((s.setStream k out.1).setReg rd (out.2.setWidth 64))

/-- RANGE (R46): a uniform integer in `[0, n)`. -/
def execRange (rd rs1 : RegIdx) (k : StreamIdx) (s : State) : Host.Outcome State Fault Refusal :=
  rangedCommand rd k 0 (s.regS rs1) (encode (.range rd rs1 k)) s

/-- IRANGE (R47): a uniform integer in `[lower, upper]`; `lower` and no draw when `upper <= lower`. -/
def execIrange (rd rs1 rs2 : RegIdx) (k : StreamIdx) (s : State) : Host.Outcome State Fault Refusal :=
  let lower := s.regS rs1
  let upper := s.regS rs2
  if upper ≤ lower then .next (s.setInt rd lower)
  else rangedCommand rd k lower (upper - lower + 1) (encode (.irange rd rs1 rs2 k)) s

end Sys2Proof.Machine
end

