-- ==== Sys2Proof/Machine/Dispatch.lean ====
section
/-! DEFINITION. One arm per command (spec/30_encoding.md R32). -/

namespace Sys2Proof.Machine

/-- Execute one decoded command (R9): one atomic transition. That FAULT = 0 was tested before it (R63; log 12);
a command that faults records `encode i`, the word that was issued (R62; log 3). -/
def exec (i : Instr) (s : State) : Host.Outcome State Fault Refusal :=
  match i with
  -- the generator engine (40_generator.md)
  | .seed rd rs1 k => Sys2Proof.Machine.execSeed rd rs1 k s
  | .draw rd k => Sys2Proof.Machine.execDraw rd k s
  | .range rd rs1 k => Sys2Proof.Machine.execRange rd rs1 k s
  | .irange rd rs1 rs2 k => Sys2Proof.Machine.execIrange rd rs1 rs2 k s
  -- the fixed-point unit (41_fixpt.md)
  | .fmul rd rs1 rs2 => Sys2Proof.Machine.execFmul rd rs1 rs2 s
  | .fdiv rd rs1 rs2 => Sys2Proof.Machine.execFdiv rd rs1 rs2 s
  | .fround rd rs1 => Sys2Proof.Machine.execFround rd rs1 s
  | .fsqrt rd rs1 => Sys2Proof.Machine.execFsqrt rd rs1 s
  | .fpow rd rs1 rs2 => Sys2Proof.Machine.execFpow rd rs1 rs2 s

end Sys2Proof.Machine
end

