-- ==== Sys2Proof/Machine/Flags.lean ====
section
/-! DEFINITION. The STATUS register (spec/10_state.md R14). The block has no condition codes: no command writes a flag
as a side effect, so STATUS is the only thing to compute here, a read-only view of FAULT, CAUSE, SEEDED and FCMD. -/

namespace Sys2Proof.Machine

/-- One bit of STATUS. -/
def bitOf (b : Bool) : BitVec 1 := BitVec.ofBool b

/-- `STATUS` as the host reads it (R14): FCMD in bits 63:32, SEEDED1 in 9, SEEDED0 in 8, CAUSE in 7:4, FAULT in 0,
zero in the reserved bits 31:10 and 3:1. -/
def State.status (s : State) : XWord :=
  s.fcmd ++ (0 : BitVec 22) ++ bitOf (s.isSeeded 1) ++ bitOf (s.isSeeded 0) ++ s.cause ++ (0 : BitVec 3) ++ bitOf s.fault

end Sys2Proof.Machine
end

