-- ==== Sys2Proof/Machine/HostPort.lean ====
section
/-! DEFINITION. The six operations of the host port (spec/10_state.md R16, R17, R18) and the step that performs the
oldest one the host has sent. -/

namespace Sys2Proof.Machine

/-- `HostWriteReg(i, v)`: `x[i] <- v`, whether or not FAULT = 1 (R16). -/
def hostWriteReg (i : RegIdx) (v : XWord) (s : State) : State := (s.setReg i v).withReply none

/-- `HostReadReg(i)`: returns `x[i]`, no effect (R16). -/
def hostReadReg (i : RegIdx) (s : State) : State := s.withReply (some (s.reg i))

/-- `HostReadStatus()`: returns STATUS, no effect (R14, R16). -/
def hostReadStatus (s : State) : State := s.withReply (some s.status)

/-- `HostReadStream(k, w)`: returns the word zero-extended, no effect (R16, R18). -/
def hostReadStream (k : StreamIdx) (w : StreamWord) (s : State) : State :=
  s.withReply (some (((s.stream k).word w).setWidth 64))

/-- `HostReset()` (R16, R70). -/
def hostReset (s : State) : State := s.clear

/-- `HostIssue(w)` (R17): ignored while FAULT = 1 (R63); an illegal word faults ILLEGAL before any operand is read
(R33, R61); any other word executes. It returns nothing. -/
def hostIssue (w : Cmd) (s : State) : Host.Outcome State Fault Refusal :=
  if s.fault then .next (s.withReply none)
  else match decode w with
    | .ok i => exec i (s.withReply none)
    | .error _ => .next ((s.withReply none).raise .illegal w)

/-- Perform one host operation. -/
def perform (op : HostOp) (s : State) : Host.Outcome State Fault Refusal :=
  match op with
  | .writeReg i v => .next (hostWriteReg i v s)
  | .readReg i => .next (hostReadReg i s)
  | .readStatus => .next (hostReadStatus s)
  | .readStream k w => .next (hostReadStream k w s)
  | .issue w => hostIssue w s
  | .reset => .next (hostReset s)

/-- One transition (R17, R25): take the oldest operation from the port and perform it; with none there the block is idle
and nothing changes (R70; log 1). -/
def hostStep (s : State) : Host.Outcome State Fault Refusal :=
  match s.port with
  | [] => .next s
  | op :: rest => perform op (s.withPort rest)

/-- Put the issue of the word of `nbits` bits with value `w` first at the port, with no fault latched, so that the very
next step runs it (log 9). -/
def State.placeCommand (s : State) (nbits w : Nat) : State :=
  { s with
    port := .issue (BitVec.ofNat 32 (w % 2 ^ nbits)) :: s.port
    fault := false
    cause := 0
    fcmd := 0 }

end Sys2Proof.Machine
end

