-- ==== Sys2Proof/Machine/Step.lean ====
section
/-! DEFINITION. The machine's step, and where the host of the pipeline places a command to be run next. -/

namespace Sys2Proof.Machine

/-- One step: the block performs the oldest host operation at its port (R17). -/
def step (s : State) : Host.Outcome State Fault Refusal := hostStep s

/-- `s` with the command of `nbits` bits and value `w` as the next thing the host issues (log 9). -/
def State.withFetchWord (s : State) (nbits w : Nat) : State := s.placeCommand nbits w

end Sys2Proof.Machine
end

