-- ==== Sys2Proof/Safety.lean ====
section
/-! DEFINITION. The words claims are stated in: what a command may change (its frame), when a draw attempt is accepted,
the accumulation of FPOW step by step, the invariant of the machine, and when two states agree but for one stream. -/

namespace Sys2Proof.Machine

/-- `t` is `s` but for register `rd`: every other register, both streams, SEEDED, STATUS, the ROM, the brackets and
the host's side are as before. -/
structure WritesOnlyReg (rd : RegIdx) (s t : State) : Prop where
  regs : ∀ i, i ≠ rd → t.reg i = s.reg i
  streams : t.streams = s.streams
  seeded : t.seeded = s.seeded
  fault : t.fault = s.fault
  cause : t.cause = s.cause
  fcmd : t.fcmd = s.fcmd
  rom : t.rom = s.rom
  brackets : t.brackets = s.brackets
  port : t.port = s.port
  reply : t.reply = s.reply

/-- `t` is `s` but for register `rd` and for the words and the SEEDED bit of stream `k`. -/
structure WritesOnlyRegAndStream (rd : RegIdx) (k : StreamIdx) (s t : State) : Prop where
  regs : ∀ i, i ≠ rd → t.reg i = s.reg i
  streams : ∀ j, j ≠ k → t.stream j = s.stream j
  seeded : ∀ j, j ≠ k → t.isSeeded j = s.isSeeded j
  fault : t.fault = s.fault
  cause : t.cause = s.cause
  fcmd : t.fcmd = s.fcmd
  rom : t.rom = s.rom
  brackets : t.brackets = s.brackets
  port : t.port = s.port
  reply : t.reply = s.reply

/-- `s` after a command with word `w` faulted with the cause code `c`: only FAULT, CAUSE and FCMD differ (R62). -/
def State.faulted (s : State) (c : BitVec 4) (w : Cmd) : State := { s with fault := true, cause := c, fcmd := w }

/-- The stream `k` steps after `st` (R41). -/
def nthState (st : GenStream) (k : Nat) : GenStream := (fun u => (genStep u).1)^[k] st

/-- The output of the `k`-th step from `st`, counted from 0 (R41). -/
def nthOutput (st : GenStream) (k : Nat) : SWord := (genStep (nthState st k)).2

/-- What `RangedCore` makes of an output: `floor(raw / floor(0xFFFFFFFF / n))` (R43). -/
def quotientOf (n : Nat) (raw : SWord) : Nat := raw.toNat / (0xFFFFFFFF / n)

/-- `RangedCore` accepts the output `raw` (R43). -/
def Accepts (n : Nat) (raw : SWord) : Prop := quotientOf n raw < n

/-- Attempt `j`, counted from 0, is the first one `RangedCore` accepts from `st` (R43). -/
def FirstAccepted (n : Nat) (st : GenStream) (j : Nat) : Prop :=
  Accepts n (nthOutput st j) ∧ ∀ m < j, ¬ Accepts n (nthOutput st m)

/-- R55's condition on a first bracket for the input `v`: its root `sqrt(v * 2^16)` lies above `lower` and not above
`upper`. -/
def EnclosesRoot (b : Bracket) (v : Nat) : Prop := b.lower ^ 2 < v * 2 ^ 16 ∧ v * 2 ^ 16 ≤ b.upper ^ 2

/-- The bisection of R55 for the input `v`, as a relation: from `[lower, upper]`, with `cand` the last midpoint computed,
the loop ends with `result`. -/
inductive Bisects (v : Int) : Int → Int → Int → Int → Prop where
  /-- The bounds are adjacent: the loop ends with the last midpoint. -/
  | adjacent (lower cand : Int) : Bisects v lower (lower + 1) cand cand
  /-- The midpoint matches exactly: the loop ends with it. -/
  | hit (lower upper cand mid : Int) : upper ≠ lower + 1 → mid = (upper + lower) / 2 →
      (mid * mid).tdiv 65536 = v → Bisects v lower upper cand mid
  /-- The midpoint's square is above the input: it becomes the upper bound. -/
  | tooHigh (lower upper cand mid result : Int) : upper ≠ lower + 1 → mid = (upper + lower) / 2 →
      v < (mid * mid).tdiv 65536 → Bisects v lower mid mid result → Bisects v lower upper cand result
  /-- The midpoint's square is below the input: it becomes the lower bound. -/
  | tooLow (lower upper cand mid result : Int) : upper ≠ lower + 1 → mid = (upper + lower) / 2 →
      (mid * mid).tdiv 65536 < v → Bisects v mid upper mid result → Bisects v lower upper cand result

/-- One accumulation step of FPOW on the pair (running result, rounding-error term) (R57). -/
def powStep (base : Int) (p : Int × Int) : Int × Int :=
  let t := p.1 * base + (p.2 * base).tdiv 65536
  (t.tdiv 65536, t.tmod 65536)

/-- The pair after `j` accumulation steps from (1.0, 0), with no check made on the way (R57). -/
def powAcc (base : Int) (j : Nat) : Int × Int := (powStep base)^[j] (65536, 0)

/-- The result of FPOW after `j` accumulation steps: the running result with the error term rounded in (R57, R53). -/
def powOut (base : Int) (j : Nat) : Int :=
  (powAcc base j).1 + (if 32768 ≤ (powAcc base j).2 then 1 else if (powAcc base j).2 ≤ -32768 then -1 else 0)

/-- A number fits 64 bits (R6). -/
def Fits (v : Int) : Prop := -2 ^ 63 ≤ v ∧ v ≤ 2 ^ 63 - 1

/-- The stream state of reset, which is also the one fixed by seeding never having happened (R49, R70). -/
def GenStream.zero : GenStream := ⟨0, 0, 0, 0⟩

/-- Which causes a command may raise once decoded (R60, column "raised by"). -/
def mayRaise : Instr → Cause → Bool
  | .seed _ _ _, _ => false
  | .draw _ _, c => c == .unseeded
  | .range _ _ _, c => c == .unseeded || c == .rangeArg
  | .irange _ _ _ _, c => c == .unseeded || c == .rangeArg
  | .fmul _ _ _, c => c == .overflow
  | .fdiv _ _ _, c => c == .divZero || c == .overflow
  | .fround _ _, _ => false
  | .fsqrt _ _, _ => false
  | .fpow _ _ _, c => c == .overflow

/-- The word `w` can have raised the cause `c`: ILLEGAL when it is no command, else a cause its command may raise. -/
def CausedBy (c : Cause) (w : Cmd) : Prop :=
  match decode w with
  | .error _ => c = .illegal
  | .ok i => mayRaise i c = true

/-- What holds of the machine at reset and is kept by every step. -/
structure Inv (s : State) : Prop where
  /-- CAUSE and FCMD are 0 while FAULT = 0 (R14). -/
  clear : s.fault = false → s.cause = 0 ∧ s.fcmd = 0
  /-- A latched fault has one of the five causes, and one its word can raise (R60; codes 6..15 are never produced). -/
  latched : s.fault = true → ∃ c : Cause, s.cause = c.code ∧ CausedBy c s.fcmd
  /-- A seeded stream is never all zero (R49). -/
  seeded : ∀ k, s.isSeeded k = true → s.stream k ≠ GenStream.zero
  /-- A stream that was never seeded holds its reset value (R11, R12, R70). -/
  unseeded : ∀ k, s.isSeeded k = false → s.stream k = GenStream.zero

/-- `s` and `t` differ at most in stream `k` and its SEEDED bit. -/
structure AgreeExceptStream (k : StreamIdx) (s t : State) : Prop where
  x : t.x = s.x
  streams : ∀ j, j ≠ k → t.stream j = s.stream j
  seeded : ∀ j, j ≠ k → t.isSeeded j = s.isSeeded j
  fault : t.fault = s.fault
  cause : t.cause = s.cause
  fcmd : t.fcmd = s.fcmd
  rom : t.rom = s.rom
  brackets : t.brackets = s.brackets
  port : t.port = s.port
  reply : t.reply = s.reply

/-- Two outcomes are of the same kind, with next states related by `R` and equal reasons to stop. -/
def SameOutcome (R : State → State → Prop) : Host.Outcome State Fault Refusal → Host.Outcome State Fault Refusal → Prop
  | .next s, .next t => R s t
  | .fault a, .fault b => a = b
  | .refused a, .refused b => a = b
  | _, _ => False

/-- The operations that leave the block's own state alone or write a register: all but `HostIssue` and `HostReset`. -/
def HostOp.isAccess : HostOp → Bool
  | .writeReg _ _ => true
  | .readReg _ => true
  | .readStatus => true
  | .readStream _ _ => true
  | .issue _ => false
  | .reset => false

/-- A step completes: the machine goes on. -/
def Completes (s : State) : Prop := ∃ t, step s = .next t

end Sys2Proof.Machine
end

