-- ==== Sys2Proof/Certificates/Slice0/Obligations.lean ====
section
/-! DEFINITION. The statements about the model, from the numbered rules of spec/. `fcmd := encode i` in a statement is the
command's own word: `EncodeOfDecodedWordGivesWord` says that it is the word that was issued. -/

open Sys2Proof Sys2Proof.Machine

/-! ### Encoding (30_encoding.md) -/

/-- Every command's word decodes to that command, with every operand at every value (R30 to R34). -/
def Obligations.DecodeOfEncodeGivesInstr : Prop := ∀ i : Instr, decode (encode i) = .ok i

/-- A word that decodes to a command is that command's word: no bit of a legal word is dropped (R33, R34). -/
def Obligations.EncodeOfDecodedWordGivesWord : Prop := ∀ (w : Cmd) (i : Instr), decode w = .ok i → encode i = w

/-- Decoding is total and agrees with R32's table: a word is some command exactly when it matches some row under that
row's mask, the command's row is the one it matches, no word matches two rows, and a word that matches none is illegal
by R33 (R34). -/
def Obligations.DecodeAgreesWithOpcodeTable : Prop :=
  ∀ w : Cmd,
    ((∃ i, decode w = .ok i) ↔ ∃ p ∈ opcodePatterns, w &&& p.2 = p.1) ∧
    (∀ i, decode w = .ok i → (matchOf i, maskOf i) ∈ opcodePatterns ∧ w &&& maskOf i = matchOf i) ∧
    (∀ p ∈ opcodePatterns, ∀ q ∈ opcodePatterns, w &&& p.2 = p.1 → w &&& q.2 = q.1 → p = q) ∧
    ((∀ p ∈ opcodePatterns, w &&& p.2 ≠ p.1) ↔
      ((fieldsOf w).opcodeDefined = false ∨ (fieldsOf w).reservedZero = false ∨ (fieldsOf w).unusedZero = false))

/-- The fields of a word are the bit ranges of R30's table, and the word is put together from them again. -/
def Obligations.FieldsAreTheBitRanges : Prop :=
  ∀ w : Cmd,
    (fieldsOf w).opc.toNat = w.toNat % 64 ∧
    (fieldsOf w).rd.toNat = w.toNat / 2 ^ 6 % 8 ∧
    (fieldsOf w).rs1.toNat = w.toNat / 2 ^ 9 % 8 ∧
    (fieldsOf w).rs2.toNat = w.toNat / 2 ^ 12 % 8 ∧
    (fieldsOf w).s.toNat = w.toNat / 2 ^ 15 % 2 ∧
    (fieldsOf w).resv.toNat = w.toNat / 2 ^ 16 ∧
    wordOf (fieldsOf w) = w

/-- A word is illegal exactly when its opcode is undefined, a reserved bit is set or a field its opcode does not use is
not zero; issued with no fault latched it faults ILLEGAL (code 1) and changes nothing but STATUS (R33). -/
def Obligations.IllegalWordsFaultAndChangeOnlyStatus : Prop :=
  ∀ w : Cmd,
    ((∃ e, decode w = .error e) ↔
      ((fieldsOf w).opcodeDefined = false ∨ (fieldsOf w).reservedZero = false ∨ (fieldsOf w).unusedZero = false)) ∧
    (∀ (s : State) (rest : List HostOp), (∃ e, decode w = .error e) → s.port = .issue w :: rest → s.fault = false →
      step s = .next ({ s with port := rest, reply := none }.faulted 1 w))

/-- Words written out from the spec decode as the spec says (95_test_vectors.md 2.1 and Part 3). -/
def Obligations.SpecWordsDecodeAsListed : Prop :=
  decode 0x00000001 = .ok (.seed 0 0 0) ∧ decode 0x00008002 = .ok (.draw 0 1) ∧
  decode 0x000004C3 = .ok (.range 3 2 0) ∧ decode 0x00003504 = .ok (.irange 4 2 3 0) ∧
  decode 0x00005B90 = .ok (.fmul 6 5 5) ∧ decode 0x00003551 = .ok (.fdiv 5 2 3) ∧
  decode 0x00000DD2 = .ok (.fround 7 6) ∧ decode 0x00000753 = .ok (.fsqrt 5 3) ∧
  decode 0x00002314 = .ok (.fpow 4 1 2) ∧ decode 0x00000000 = .error .undefinedOpcode ∧
  decode 0x00010201 = .error .reservedBits ∧ decode 0x00008010 = .error .unusedField

/-! ### The host port and the step (10_state.md, 60_exceptions.md, 70_reset_and_hazards.md)
The fields `port` and `reply` are the model's own form of the host's side of the port (log 1, log 2). -/

/-- When the host's next operation issues a word that decodes to `i` and no fault is latched, the step is `exec i`, with
the operation taken from the port and nothing returned (R17). -/
def Obligations.StepRunsDecodedCommand : Prop :=
  ∀ (s : State) (w : Cmd) (i : Instr) (rest : List HostOp),
    s.port = .issue w :: rest → s.fault = false → decode w = .ok i →
    step s = exec i { s with port := rest, reply := none }

/-- With nothing at the port the block is idle: a step changes nothing (log 1). -/
def Obligations.EmptyPortStepIsIdle : Prop := ∀ s : State, s.port = [] → step s = .next s

/-- While FAULT = 1 an issue of any word, legal or not, is ignored: no state of the block changes and STATUS keeps the
first fault. Register writes and the three reads still work (R63). -/
def Obligations.FaultedBlockIgnoresIssuesOnly : Prop :=
  ∀ (s : State) (rest : List HostOp), s.fault = true →
    (∀ w, s.port = .issue w :: rest → step s = .next { s with port := rest, reply := none }) ∧
    (∀ i v, s.port = .writeReg i v :: rest → ∃ t, step s = .next t ∧ t.reg i = v ∧
      WritesOnlyReg i { s with port := rest, reply := none } t) ∧
    (∀ i, s.port = .readReg i :: rest → step s = .next { s with port := rest, reply := some (s.reg i) }) ∧
    (s.port = .readStatus :: rest → step s = .next { s with port := rest, reply := some s.status }) ∧
    (∀ k w, s.port = .readStream k w :: rest →
      step s = .next { s with port := rest, reply := some (((s.stream k).word w).setWidth 64) })

/-- The five operations other than an issue, in every state: a write sets that register and nothing else; a read returns the
whole value and changes nothing; reset leaves the reset values, the ROM and the brackets not changed (R16, R70). -/
def Obligations.HostAccessesDoWhatTheTableSays : Prop :=
  ∀ (s : State) (rest : List HostOp),
    (∀ i v, s.port = .writeReg i v :: rest →
      ∃ t, step s = .next t ∧ t.reg i = v ∧ WritesOnlyReg i { s with port := rest, reply := none } t) ∧
    (∀ i, s.port = .readReg i :: rest → step s = .next { s with port := rest, reply := some (s.reg i) }) ∧
    (s.port = .readStatus :: rest → step s = .next { s with port := rest, reply := some s.status }) ∧
    (∀ k w, s.port = .readStream k w :: rest →
      step s = .next { s with port := rest, reply := some (((s.stream k).word w).setWidth 64) }) ∧
    (s.port = .reset :: rest → step s = .next
      { State.reset with rom := s.rom, brackets := s.brackets, port := rest, reply := none })

/-- `HostReadStream` returns the word it names, whether or not the stream is seeded, and changes no state; of a stream
that was never seeded it returns the reset value 0 (R18; `Inv` holds at reset and every step keeps it). -/
def Obligations.StreamReadReturnsNamedWord : Prop :=
  ∀ (s : State) (k : StreamIdx) (w : StreamWord) (rest : List HostOp), s.port = .readStream k w :: rest →
    ∃ t v, step s = .next t ∧ t.reply = some v ∧
      v.toNat = (match w with
        | .a => (s.stream k).a.toNat
        | .b => (s.stream k).b.toNat
        | .c => (s.stream k).c.toNat
        | .d => (s.stream k).d.toNat) ∧
      (Inv s → s.isSeeded k = false → v = 0) ∧
      t.x = s.x ∧ t.streams = s.streams ∧ t.seeded = s.seeded ∧ t.status = s.status ∧ t.rom = s.rom ∧ t.brackets = s.brackets ∧
      t.port = rest

/-- Power-on and `HostReset`, from any state, leave every register, stream word, SEEDED bit and STATUS at 0; `HostReset`
does not change the ROM (R70). -/
def Obligations.ResetLeavesZeros : Prop :=
  (∀ i, State.reset.reg i = 0) ∧ (∀ k, State.reset.stream k = ⟨0, 0, 0, 0⟩) ∧ (∀ k, State.reset.isSeeded k = false) ∧
  State.reset.fault = false ∧ State.reset.cause = 0 ∧ State.reset.fcmd = 0 ∧ State.reset.status = 0 ∧
  (∀ (s : State) (rest : List HostOp), s.port = .reset :: rest → ∃ t, step s = .next t ∧
    (∀ i, t.reg i = 0) ∧ (∀ k, t.stream k = ⟨0, 0, 0, 0⟩) ∧ (∀ k, t.isSeeded k = false) ∧
    t.fault = false ∧ t.cause = 0 ∧ t.fcmd = 0 ∧ t.status = 0 ∧ (∀ k, romRead t.rom k = romRead s.rom k))

/-- The number STATUS reads as: FAULT in bit 0, CAUSE in 7:4, SEEDED0 in 8, SEEDED1 in 9, FCMD in 63:32, and 0 in
every reserved bit (R14's table). -/
def Obligations.StatusWordHasItsFields : Prop :=
  ∀ s : State, s.status.toNat =
    s.fault.toNat + 2 ^ 4 * s.cause.toNat + 2 ^ 8 * (s.isSeeded 0).toNat + 2 ^ 9 * (s.isSeeded 1).toNat +
      2 ^ 32 * s.fcmd.toNat

/-- A fault is precise: a step from a state without a fault to one with a fault performed an issue, and the state is
exactly as before but for the port and FAULT, CAUSE and FCMD, which hold 1, the code of a cause and the word that was
issued (R62). -/
def Obligations.FaultIsPrecise : Prop :=
  ∀ s t : State, s.fault = false → step s = .next t → t.fault = true →
    ∃ (w : Cmd) (rest : List HostOp) (c : Cause), s.port = .issue w :: rest ∧ CausedBy c w ∧
      t = { s with port := rest, reply := none }.faulted c.code w

/-- Once FAULT = 1, no operation but `HostReset` changes FAULT, CAUSE or FCMD; reset clears all three and returns every
register and both streams to their reset values (R64). -/
def Obligations.OnlyResetClearsFault : Prop :=
  ∀ s t : State, s.fault = true → step s = .next t →
    ((∃ rest, s.port = .reset :: rest) → t.fault = false ∧ t.cause = 0 ∧ t.fcmd = 0 ∧
      (∀ i, t.reg i = State.reset.reg i) ∧ (∀ k, t.stream k = State.reset.stream k)) ∧
    ((∀ rest, s.port ≠ .reset :: rest) → t.fault = true ∧ t.cause = s.cause ∧ t.fcmd = s.fcmd)

/-- The ROM is never written, by commands, by the host or by reset (R22). -/
def Obligations.RomIsNeverWritten : Prop :=
  ∀ s t : State, step s = .next t → ∀ k, romRead t.rom k = romRead s.rom k

/-- Each entry of the ROM at reset is R21's default: `isqrt(k * 2^32)`, or one more when that is nearer to the root. -/
def Obligations.ResetRomHoldsNearestRoots : Prop :=
  ∀ k : Fin 128, ∃ q : Nat, q * q ≤ k.val * 2 ^ 32 ∧ k.val * 2 ^ 32 < (q + 1) * (q + 1) ∧
    (romRead State.reset.rom k).toNat = if (2 * q + 1) ^ 2 ≤ 4 * (k.val * 2 ^ 32) then q + 1 else q

/-- Operations are performed one at a time in the order the host sent them: a step performs the first of the port, and
whatever that operation is, the others stay at the port behind it (R17, R25; log 1; for a reset log 16). -/
def Obligations.PortIsServedInOrder : Prop :=
  (∀ (s : State) (op : HostOp) (rest : List HostOp), s.port = op :: rest → step s = perform op (s.withPort rest)) ∧
  (∀ s t : State, step s = .next t → t.port = s.port.tail)

/-- The host's reads and register writes leave the streams, SEEDED and STATUS as they are (R11, R14, R69). -/
def Obligations.HostAccessesLeaveStreamsAndStatus : Prop :=
  ∀ (s t : State) (op : HostOp) (rest : List HostOp), op.isAccess = true → s.port = op :: rest → step s = .next t →
    t.streams = s.streams ∧ t.seeded = s.seeded ∧ t.status = s.status

/-- Every step of every state completes, but for a RANGE or IRANGE that hangs: nothing is ever refused (R17, R49). -/
def Obligations.OnlyRangedDrawsCanFailToComplete : Prop :=
  ∀ s : State, Completes s ∨
    (step s = .fault .hang ∧ s.fault = false ∧ ∃ (w : Cmd) (rest : List HostOp), s.port = .issue w :: rest ∧
      ((∃ rd rs1 k, decode w = .ok (.range rd rs1 k)) ∨ (∃ rd rs1 rs2 k, decode w = .ok (.irange rd rs1 rs2 k))))

/-- The word the pipeline places is the next thing that runs (log 9). -/
def Obligations.PlacedWordRunsNext : Prop :=
  ∀ (s : State) (w : Cmd) (i : Instr), decode w = .ok i →
    step (s.withFetchWord 32 w.toNat) = exec i { s with fault := false, cause := 0, fcmd := 0, reply := none }

/-! ### Invariant -/

/-- The invariant holds at reset. -/
def Obligations.ResetHasInvariant : Prop := Inv State.reset

/-- Every step keeps the invariant: STATUS without a fault is clear of one, a latched cause is one its word can raise,
a seeded stream is never all zero, an unseeded one is (R14, R49, R60, R70). -/
def Obligations.StepKeepsInvariant : Prop := ∀ s t : State, Inv s → step s = .next t → Inv t

/-! ### All commands -/

/-- A command writes no register but its destination (R10). -/
def Obligations.CommandsWriteOnlyTheirDestination : Prop :=
  ∀ (i : Instr) (s t : State) (r : RegIdx), exec i s = .next t → r ≠ i.dest → t.reg r = s.reg r

/-- A command leaves every stream it does not name as it is, words and SEEDED bit (R48). -/
def Obligations.CommandsLeaveOtherStreams : Prop :=
  ∀ (i : Instr) (s t : State) (k : StreamIdx), exec i s = .next t → i.stream? ≠ some k →
    t.stream k = s.stream k ∧ t.isSeeded k = s.isSeeded k

/-- What a command does, does not depend on a stream it does not name: from two states that differ only in that stream
and its SEEDED bit it ends in the same way, in states that again differ only there (R48). -/
def Obligations.CommandsDoNotReadOtherStreams : Prop :=
  ∀ (i : Instr) (s t : State) (k : StreamIdx), i.stream? ≠ some k → AgreeExceptStream k s t →
    SameOutcome (AgreeExceptStream k) (exec i s) (exec i t)

/-- A command never clears a SEEDED bit, and only a SEED of that stream with a non-zero seed sets one (R12). -/
def Obligations.OnlyNonzeroSeedSetsSeeded : Prop :=
  ∀ (i : Instr) (s t : State) (k : StreamIdx), exec i s = .next t →
    (s.isSeeded k = true → t.isSeeded k = true) ∧
    (s.isSeeded k = false → t.isSeeded k = true → ∃ rd rs1, i = .seed rd rs1 k ∧ s.reg rs1 ≠ 0)

/-! ### Generator engine (40_generator.md) -/

/-- One step in numbers: R41's five equations modulo 2^32, with R40's rotation, and the output the new `d`. -/
def Obligations.GenStepIsTheFiveEquations : Prop :=
  ∀ st : GenStream,
    let rot : Nat → Nat → Nat := fun x k => ((x <<< k) ||| (x >>> (32 - k))) % 2 ^ 32
    let e := (st.a.toNat + (2 ^ 32 - rot st.b.toNat 27)) % 2 ^ 32
    let o := genStep st
    o.1.a.toNat = st.b.toNat ^^^ rot st.c.toNat 17 ∧ o.1.b.toNat = (st.c.toNat + st.d.toNat) % 2 ^ 32 ∧
    o.1.c.toNat = (st.d.toNat + e) % 2 ^ 32 ∧ o.1.d.toNat = (e + o.1.a.toNat) % 2 ^ 32 ∧ o.2 = o.1.d

/-- The step is a bijection on the states of a stream, and maps the all-zero state to itself with output 0 (R49). -/
def Obligations.GenStepIsBijective : Prop :=
  Function.Bijective (fun st : GenStream => (genStep st).1) ∧ genStep ⟨0, 0, 0, 0⟩ = (⟨0, 0, 0, 0⟩, 0)

/-- No state reached from seeding is ever all zero, whatever the seed and however many steps follow (R49). -/
def Obligations.SeededStreamsAreNeverZero : Prop :=
  ∀ (seed : XWord) (j : Nat), nthState (seedState seed) j ≠ ⟨0, 0, 0, 0⟩

/-- One attempt of `RangedCore`, for every legal `n`: an output below `n * div` is accepted, and the draw is then its
quotient with the stream one step on; any other is rejected, and the draw is what it is from the next state. An output
below 2^31 is always accepted (R43). -/
def Obligations.AcceptedExactlyBelowProduct : Prop :=
  ∀ (n : Nat) (st : GenStream), 1 ≤ n → n ≤ 2 ^ 32 - 1 →
    (rangedCore st n =
      if (genStep st).2.toNat < n * (0xFFFFFFFF / n)
      then some ((genStep st).2.toNat / (0xFFFFFFFF / n), (genStep st).1)
      else rangedCore (genStep st).1 n) ∧
    ((genStep st).2.toNat < 2 ^ 31 → ∃ r, rangedCore st n = some (r, (genStep st).1))

/-- SEED (R44): a non-zero seed puts the stream into the state 20 steps after R42's start, sets SEEDED and returns the
seed; the sentinel 0 returns 0 and changes nothing else. -/
def Obligations.SeedInitialisesStreamOrReturnsZero : Prop :=
  ∀ (s : State) (rd rs1 : RegIdx) (k : StreamIdx),
    encode (.seed rd rs1 k) &&& 0xFFFF703F = 0x00000001 ∧
    (s.reg rs1 ≠ 0 → ∃ t, exec (.seed rd rs1 k) s = .next t ∧ t.reg rd = s.reg rs1 ∧
      t.stream k = nthState ⟨0xF1EA5EED, BitVec.ofNat 32 ((s.reg rs1).toNat % 2 ^ 32),
        BitVec.ofNat 32 ((s.reg rs1).toNat % 2 ^ 32) ^^^ BitVec.ofNat 32 ((s.reg rs1).toNat / 2 ^ 32),
        BitVec.ofNat 32 ((s.reg rs1).toNat % 2 ^ 32)⟩ 20 ∧
      t.isSeeded k = true ∧ WritesOnlyRegAndStream rd k s t) ∧
    (s.reg rs1 = 0 → ∃ t, exec (.seed rd rs1 k) s = .next t ∧ t.reg rd = 0 ∧ WritesOnlyReg rd s t)

/-- DRAW (R45): from a seeded stream, one step, its output zero-extended into `rd`; from an unseeded stream the fault
UNSEEDED (code 2) with no state changed. -/
def Obligations.DrawStepsOnceOrFaultsUnseeded : Prop :=
  ∀ (s : State) (rd : RegIdx) (k : StreamIdx),
    encode (.draw rd k) &&& 0xFFFF7E3F = 0x00000002 ∧
    (s.isSeeded k = true → ∃ t, exec (.draw rd k) s = .next t ∧
      (t.reg rd).toNat = (genStep (s.stream k)).2.toNat ∧ t.stream k = (genStep (s.stream k)).1 ∧
      t.isSeeded k = true ∧ WritesOnlyRegAndStream rd k s t) ∧
    (s.isSeeded k = false → exec (.draw rd k) s = .next (s.faulted 2 (encode (.draw rd k))))

/-- RANGE (R46, R43): `n` outside `[1, 2^32 - 1]` faults RANGE_ARG (code 3); a legal `n` on an unseeded stream faults
UNSEEDED (code 2); otherwise, where attempt `j` is the first accepted, the command writes its quotient and leaves the
stream `j + 1` steps on. -/
def Obligations.RangeTakesFirstAcceptedDraw : Prop :=
  ∀ (s : State) (rd rs1 : RegIdx) (k : StreamIdx),
    let n := (s.reg rs1).toInt
    let w := encode (.range rd rs1 k)
    w &&& 0xFFFF703F = 0x00000003 ∧
    (n ≤ 0 ∨ 0xFFFFFFFF < n → exec (.range rd rs1 k) s = .next (s.faulted 3 w)) ∧
    (1 ≤ n → n ≤ 0xFFFFFFFF → s.isSeeded k = false → exec (.range rd rs1 k) s = .next (s.faulted 2 w)) ∧
    (1 ≤ n → n ≤ 0xFFFFFFFF → s.isSeeded k = true → ∀ j, FirstAccepted n.toNat (s.stream k) j →
      ∃ t, exec (.range rd rs1 k) s = .next t ∧
        (t.reg rd).toInt = quotientOf n.toNat (nthOutput (s.stream k) j) ∧
        t.stream k = nthState (s.stream k) (j + 1) ∧ t.isSeeded k = true ∧ WritesOnlyRegAndStream rd k s t)

/-- RANGE with a legal `n` on a seeded stream fails to complete exactly when every attempt, forever, is rejected
(R49; log 4). -/
def Obligations.RangeHangsExactlyWhenNothingAccepted : Prop :=
  ∀ (s : State) (rd rs1 : RegIdx) (k : StreamIdx),
    1 ≤ (s.reg rs1).toInt → (s.reg rs1).toInt ≤ 0xFFFFFFFF → s.isSeeded k = true →
    (exec (.range rd rs1 k) s = .fault .hang ↔
      ∀ j, ¬ Accepts (s.reg rs1).toInt.toNat (nthOutput (s.stream k) j))

/-- A RANGE that completes without a fault returns a value in `[0, n)` (R46). -/
def Obligations.RangeResultIsBelowN : Prop :=
  ∀ (s t : State) (rd rs1 : RegIdx) (k : StreamIdx), s.fault = false → exec (.range rd rs1 k) s = .next t →
    t.fault = false → 0 ≤ (t.reg rd).toInt ∧ (t.reg rd).toInt < (s.reg rs1).toInt

/-- IRANGE (R47): `upper <= lower` writes `lower` with no draw, on an unseeded stream too; else an interval above
2^32 - 1 faults RANGE_ARG (code 3), an unseeded stream UNSEEDED (code 2), and otherwise, where attempt `j` is the
first accepted, the command writes `lower` plus its quotient and leaves the stream `j + 1` steps on. -/
def Obligations.IrangeShortCircuitsFaultsOrDraws : Prop :=
  ∀ (s : State) (rd rs1 rs2 : RegIdx) (k : StreamIdx),
    let lower := (s.reg rs1).toInt
    let upper := (s.reg rs2).toInt
    let n := upper - lower + 1
    let w := encode (.irange rd rs1 rs2 k)
    w &&& 0xFFFF003F = 0x00000004 ∧
    (upper ≤ lower → ∃ t, exec (.irange rd rs1 rs2 k) s = .next t ∧ (t.reg rd).toInt = lower ∧ WritesOnlyReg rd s t) ∧
    (lower < upper → 0xFFFFFFFF < n → exec (.irange rd rs1 rs2 k) s = .next (s.faulted 3 w)) ∧
    (lower < upper → n ≤ 0xFFFFFFFF → s.isSeeded k = false →
      exec (.irange rd rs1 rs2 k) s = .next (s.faulted 2 w)) ∧
    (lower < upper → n ≤ 0xFFFFFFFF → s.isSeeded k = true → ∀ j, FirstAccepted n.toNat (s.stream k) j →
      ∃ t, exec (.irange rd rs1 rs2 k) s = .next t ∧
        (t.reg rd).toInt = lower + quotientOf n.toNat (nthOutput (s.stream k) j) ∧
        t.stream k = nthState (s.stream k) (j + 1) ∧ t.isSeeded k = true ∧ WritesOnlyRegAndStream rd k s t)

/-- IRANGE that has to draw, with a legal interval on a seeded stream, fails to complete exactly when every attempt,
forever, is rejected (R49; log 4). -/
def Obligations.IrangeHangsExactlyWhenNothingAccepted : Prop :=
  ∀ (s : State) (rd rs1 rs2 : RegIdx) (k : StreamIdx),
    (s.reg rs1).toInt < (s.reg rs2).toInt → (s.reg rs2).toInt - (s.reg rs1).toInt + 1 ≤ 0xFFFFFFFF →
    s.isSeeded k = true →
    (exec (.irange rd rs1 rs2 k) s = .fault .hang ↔
      ∀ j, ¬ Accepts ((s.reg rs2).toInt - (s.reg rs1).toInt + 1).toNat (nthOutput (s.stream k) j))

/-- An IRANGE that completes without a fault returns `lower` when `upper <= lower`, and else a value in
`[lower, upper]` (R47). -/
def Obligations.IrangeResultIsInInterval : Prop :=
  ∀ (s t : State) (rd rs1 rs2 : RegIdx) (k : StreamIdx), s.fault = false → exec (.irange rd rs1 rs2 k) s = .next t →
    t.fault = false →
    if (s.reg rs2).toInt ≤ (s.reg rs1).toInt then (t.reg rd).toInt = (s.reg rs1).toInt
    else (s.reg rs1).toInt ≤ (t.reg rd).toInt ∧ (t.reg rd).toInt ≤ (s.reg rs2).toInt

/-! ### Fixed-point unit (41_fixpt.md) -/

/-- FMUL (R51): the exact product over 2^16 truncated toward zero when it fits 64 bits, else OVERFLOW (code 5). -/
def Obligations.FmulTruncatesOrOverflows : Prop :=
  ∀ (s : State) (rd rs1 rs2 : RegIdx),
    let v := ((s.reg rs1).toInt * (s.reg rs2).toInt).tdiv 65536
    let w := encode (.fmul rd rs1 rs2)
    w &&& 0xFFFF803F = 0x00000010 ∧
    (Fits v → ∃ t, exec (.fmul rd rs1 rs2) s = .next t ∧ (t.reg rd).toInt = v ∧ WritesOnlyReg rd s t) ∧
    (¬ Fits v → exec (.fmul rd rs1 rs2) s = .next (s.faulted 5 w))

/-- FDIV (R52): divisor 0 faults DIVZERO (code 4), tested first; else the quotient truncated toward zero when it fits
64 bits, and OVERFLOW (code 5) when it does not. -/
def Obligations.FdivTruncatesOrFaults : Prop :=
  ∀ (s : State) (rd rs1 rs2 : RegIdx),
    let y := (s.reg rs2).toInt
    let v := ((s.reg rs1).toInt * 65536).tdiv y
    let w := encode (.fdiv rd rs1 rs2)
    w &&& 0xFFFF803F = 0x00000011 ∧
    (y = 0 → exec (.fdiv rd rs1 rs2) s = .next (s.faulted 4 w)) ∧
    (y ≠ 0 → Fits v → ∃ t, exec (.fdiv rd rs1 rs2) s = .next t ∧ (t.reg rd).toInt = v ∧ WritesOnlyReg rd s t) ∧
    (y ≠ 0 → ¬ Fits v → exec (.fdiv rd rs1 rs2) s = .next (s.faulted 5 w))

/-- FROUND (R53): the truncated quotient by 2^16, one further from zero when the remainder's magnitude is at least half;
it never faults and its magnitude is at most 2^47. -/
def Obligations.FroundRoundsHalfAwayFromZero : Prop :=
  ∀ (s : State) (rd rs1 : RegIdx),
    let x := (s.reg rs1).toInt
    let q := x.tdiv 65536
    let r := x - 65536 * q
    encode (.fround rd rs1) &&& 0xFFFFF03F = 0x00000012 ∧
    ∃ t, exec (.fround rd rs1) s = .next t ∧
      (t.reg rd).toInt = (if 32768 ≤ r ∨ r ≤ -32768 then q + x.sign else q) ∧
      (t.reg rd).toInt.natAbs ≤ 2 ^ 47 ∧ WritesOnlyReg rd s t

/-- FROUND's result is `sign(x) * floor((|x| + 2^15) / 2^16)` (R53). -/
def Obligations.FroundIsSignTimesFloor : Prop :=
  ∀ (s : State) (rd rs1 : RegIdx), ∃ t, exec (.fround rd rs1) s = .next t ∧
    (t.reg rd).toInt =
      (s.reg rs1).toInt.sign * ((((s.reg rs1).toInt.natAbs + 2 ^ 15) / 2 ^ 16 : Nat) : Int)

/-- FSQRT completes on every operand and writes `Sqrt` of it, with the block's own brackets and ROM, whatever they are
(R4, R56). That a root outside 64 bits is written modulo 2^64 without a fault is the model's choice (log 18). -/
def Obligations.FsqrtAlwaysCompletes : Prop :=
  ∀ (s : State) (rd rs1 : RegIdx),
    encode (.fsqrt rd rs1) &&& 0xFFFFF03F = 0x00000013 ∧
    ∃ t, exec (.fsqrt rd rs1) s = .next t ∧
      t.reg rd = BitVec.ofInt 64 (fixSqrt (bracketRead s.brackets) s.rom (s.reg rs1).toInt) ∧ WritesOnlyReg rd s t

/-- FSQRT of `k * ONE` for `k` in 0..127 writes ROM entry `k`; of `-k * ONE` for `k` in 1..127 its negation (R55, the
ROM and sign-flip cases). That the negation of an entry of -2^63 is written modulo 2^64 is the model's choice (log 18). -/
def Obligations.FsqrtReadsRomForTableInputs : Prop :=
  ∀ (s : State) (rd rs1 : RegIdx) (k : Fin 128),
    ((s.reg rs1).toInt = k.val * 65536 → ∃ t, exec (.fsqrt rd rs1) s = .next t ∧ t.reg rd = romRead s.rom k ∧
      WritesOnlyReg rd s t) ∧
    (1 ≤ k.val → (s.reg rs1).toInt = -(k.val * 65536 : Int) → ∃ t, exec (.fsqrt rd rs1) s = .next t ∧
      t.reg rd = -romRead s.rom k ∧ WritesOnlyReg rd s t)

/-- The square root is an odd function (R55: "if v < 0: return -Sqrt(-v)"), whatever the ROM and the bracket. -/
def Obligations.SqrtFlipsSign : Prop :=
  ∀ (bracket : Nat → Bracket) (rom : Vector XWord 128) (v : Int), 0 < v →
    fixSqrt bracket rom (-v) = -fixSqrt bracket rom v

/-- The default bracket encloses the root strictly, for every positive input, and is at least 2^7 wide (R55; log 6). -/
def Obligations.BracketEnclosesRoot : Prop :=
  ∀ v : Nat, 0 < v →
    let b := Config.sqrtBracket (msbpos v)
    b.lower ^ 2 < v * 2 ^ 16 ∧ v * 2 ^ 16 < b.upper ^ 2 ∧
    fixMul b.lower b.lower < v ∧ v < fixMul b.upper b.upper ∧ b.lower + 2 ^ 7 ≤ b.upper

/-- Off the table `Sqrt` of a positive input is what the bisection reaches, whatever brackets the block is given: from the
bracket of an input of `m` bits, midpoint by midpoint, to the last midpoint computed (R54, R55). -/
def Obligations.SqrtIsTheLastMidpoint : Prop :=
  ∀ (bracket : Nat → Bracket) (rom : Vector XWord 128) (v m : Nat),
    isTableInput v = false → 2 ^ (m - 1) ≤ v → v < 2 ^ m →
    Bisects v (bracket m).lower (bracket m).upper 0 (fixSqrt bracket rom v)

/-- Off the table, from any bracket that encloses the root strictly and is at least 2 wide (the default does, by
`BracketEnclosesRoot`), the bisection ends at a value whose fixed-point square is the input, or next to the true root: at
its integer part or one above (R55, R59). -/
def Obligations.SqrtMatchesOrIsNextToRoot : Prop :=
  ∀ (bracket : Nat → Bracket) (rom : Vector XWord 128) (v : Nat), isTableInput v = false →
    (bracket (msbpos v)).lower ^ 2 < v * 2 ^ 16 → v * 2 ^ 16 < (bracket (msbpos v)).upper ^ 2 →
    (bracket (msbpos v)).lower + 1 < (bracket (msbpos v)).upper →
    let c := fixSqrt bracket rom v
    fixMul c c = v ∨ c = Nat.sqrt (v * 2 ^ 16) ∨ c = Nat.sqrt (v * 2 ^ 16) + 1

/-- Off the table and from 0.25 upward the root is within one unit, from any bracket that encloses it strictly and is at
least 2 wide (the default does): the integer part of the true root in fixed-point units, or one above (R59 (a)). -/
def Obligations.SqrtIsWithinOneUnit : Prop :=
  ∀ (bracket : Nat → Bracket) (rom : Vector XWord 128) (v : Nat), 2 ^ 14 ≤ v → isTableInput v = false →
    (bracket (msbpos v)).lower ^ 2 < v * 2 ^ 16 → v * 2 ^ 16 < (bracket (msbpos v)).upper ^ 2 →
    (bracket (msbpos v)).lower + 1 < (bracket (msbpos v)).upper →
    fixSqrt bracket rom v = Nat.sqrt (v * 2 ^ 16) ∨ fixSqrt bracket rom v = Nat.sqrt (v * 2 ^ 16) + 1

/-- FSQRT never overflows: off the table, where the block's bracket for the operand meets R55's condition, the root of a
64-bit value is below 2^40 in magnitude, and so is the number the register then holds (R55, R56). -/
def Obligations.FsqrtResultIsBelow2Pow40 : Prop :=
  ∀ (s : State) (rd rs1 : RegIdx), isTableInput (s.reg rs1).toInt.natAbs = false →
    EnclosesRoot (bracketRead s.brackets (msbpos (s.reg rs1).toInt.natAbs)) (s.reg rs1).toInt.natAbs →
    ∃ t, exec (.fsqrt rd rs1) s = .next t ∧
      (t.reg rd).toInt = fixSqrt (bracketRead s.brackets) s.rom (s.reg rs1).toInt ∧ (t.reg rd).toInt.natAbs < 2 ^ 40

/-- FPOW (R57, R58): base 0 gives 0 for every exponent; else, with the reciprocal base for a negative exponent, `|e|`
accumulation steps from (1.0, 0) and the rounded error term give the result when every running result and the result
fit 64 bits, and OVERFLOW (code 5) when one does not. -/
def Obligations.FpowAccumulatesOrOverflows : Prop :=
  ∀ (s : State) (rd rs1 rs2 : RegIdx),
    let base := (s.reg rs1).toInt
    let e := (s.reg rs2).toInt
    let b := if e < 0 then (2 ^ 32 : Int).tdiv base else base
    let m := e.natAbs
    let w := encode (.fpow rd rs1 rs2)
    w &&& 0xFFFF803F = 0x00000014 ∧
    (base = 0 → ∃ t, exec (.fpow rd rs1 rs2) s = .next t ∧ t.reg rd = 0 ∧ WritesOnlyReg rd s t) ∧
    (base ≠ 0 → (∀ j, 1 ≤ j → j ≤ m → Fits (powAcc b j).1) → Fits (powOut b m) →
      ∃ t, exec (.fpow rd rs1 rs2) s = .next t ∧ (t.reg rd).toInt = powOut b m ∧ WritesOnlyReg rd s t) ∧
    (base ≠ 0 → (∃ j, 1 ≤ j ∧ j ≤ m ∧ ¬ Fits (powAcc b j).1) ∨ ¬ Fits (powOut b m) →
      exec (.fpow rd rs1 rs2) s = .next (s.faulted 5 w))

/-- FPOW with exponent 0 and a non-zero base writes 1.0 (R58). -/
def Obligations.FpowZeroExponentGivesOne : Prop :=
  ∀ (s : State) (rd rs1 rs2 : RegIdx), s.reg rs1 ≠ 0 → s.reg rs2 = 0 →
    ∃ t, exec (.fpow rd rs1 rs2) s = .next t ∧ t.reg rd = 65536 ∧ WritesOnlyReg rd s t

/-- A repeated pair repeats the result: if `i` and `j` steps reach the same pair with no running result on the way
outside 64 bits, then `i + c` and `j + c` steps give the same result, whatever `c` (R58). -/
def Obligations.FpowRepeatedPairRepeatsResult : Prop :=
  ∀ (base : Int) (i j : Nat), base ≠ 0 → powAcc base i = powAcc base j →
    (∀ m, 1 ≤ m → m ≤ i ∨ m ≤ j → Fits (powAcc base m).1) →
    ∀ c : Nat, fixPow base ((i + c : Nat) : Int) = fixPow base ((j + c : Nat) : Int)

/-- A step of FPOW's loop loses nothing: the pair it answers is `t` split at the scale, with the error term below one unit
of scale and the running result within 64 bits; and the error term the loop ends with is below one unit of scale, for
every base and every number of steps (R57). -/
def Obligations.PowErrorTermIsBelowScale : Prop :=
  (∀ (base : Int) (p q : Int × Int), powNext base p = some q →
    65536 * q.1 + q.2 = p.1 * base + (p.2 * base).tdiv 65536 ∧ q.2.natAbs < 2 ^ 16 ∧ Fits q.1) ∧
  (∀ (base : Int) (e : Nat) (q : Int × Int), powLoop base e (65536, 0) = some q → q.2.natAbs < 2 ^ 16)

/-- Multiplying and dividing by 1.0 gives the operand back (R51, R52). -/
def Obligations.OneIsNeutralForFmulAndFdiv : Prop :=
  ∀ (s : State) (rd rs1 rs2 : RegIdx), s.reg rs2 = 65536 →
    (∃ t, exec (.fmul rd rs1 rs2) s = .next t ∧ t.reg rd = s.reg rs1) ∧
    (∃ t, exec (.fdiv rd rs1 rs2) s = .next t ∧ t.reg rd = s.reg rs1)

/-! ### Operands and parameters -/

/-- Which bits give a command its operands: in every word that decodes, bits 5:0 are the command's opcode, bits 8:6 are
its `rd`, bits 11:9 its `rs1`, bits 14:12 its `rs2` and bit 15 its stream, as far as it has them (R30, R31, R35). -/
def Obligations.DecodedOperandsAreTheirBits : Prop :=
  ∀ (w : Cmd) (i : Instr), decode w = .ok i →
    let opc := w.toNat % 64
    let b8_6 := w.toNat / 2 ^ 6 % 8
    let b11_9 := w.toNat / 2 ^ 9 % 8
    let b14_12 := w.toNat / 2 ^ 12 % 8
    let b15 := w.toNat / 2 ^ 15 % 2
    match i with
    | .seed rd rs1 k => opc = 0x01 ∧ rd.val = b8_6 ∧ rs1.val = b11_9 ∧ k.val = b15
    | .draw rd k => opc = 0x02 ∧ rd.val = b8_6 ∧ k.val = b15
    | .range rd rs1 k => opc = 0x03 ∧ rd.val = b8_6 ∧ rs1.val = b11_9 ∧ k.val = b15
    | .irange rd rs1 rs2 k => opc = 0x04 ∧ rd.val = b8_6 ∧ rs1.val = b11_9 ∧ rs2.val = b14_12 ∧ k.val = b15
    | .fmul rd rs1 rs2 => opc = 0x10 ∧ rd.val = b8_6 ∧ rs1.val = b11_9 ∧ rs2.val = b14_12
    | .fdiv rd rs1 rs2 => opc = 0x11 ∧ rd.val = b8_6 ∧ rs1.val = b11_9 ∧ rs2.val = b14_12
    | .fround rd rs1 => opc = 0x12 ∧ rd.val = b8_6 ∧ rs1.val = b11_9
    | .fsqrt rd rs1 => opc = 0x13 ∧ rd.val = b8_6 ∧ rs1.val = b11_9
    | .fpow rd rs1 rs2 => opc = 0x14 ∧ rd.val = b8_6 ∧ rs1.val = b11_9 ∧ rs2.val = b14_12

/-- The block at reset holds R55's default brackets, for every bit position a register's magnitude can have (log 6). -/
def Obligations.ResetHoldsDefaultBrackets : Prop :=
  ∀ m : Nat, 1 ≤ m → m ≤ 64 →
    (bracketRead State.reset.brackets m).lower = 2 ^ ((m + 14) / 2) ∧
    (bracketRead State.reset.brackets m).upper = 2 ^ ((m + 17) / 2)

/-- The brackets the block was given are never written, by commands, by the host or by reset: they are a parameter (R4). -/
def Obligations.BracketsAreNeverWritten : Prop := ∀ s t : State, step s = .next t → t.brackets = s.brackets
end

