-- ==== Sys2Proof/Laws/Decode.lean ====
section
/-! SUPPORT. The pieces of the encoding: a field's number goes through its bits unchanged, and a word is the join of its
fields. -/

namespace Sys2Proof

@[simp] theorem regOf_regField (r : RegIdx) : regOf (regField r) = r := by revert r; decide

@[simp] theorem regField_regOf (b : BitVec 3) : regField (regOf b) = b := by revert b; decide

@[simp] theorem streamOf_streamField (k : StreamIdx) : streamOf (streamField k) = k := by revert k; decide

@[simp] theorem streamField_streamOf (b : BitVec 1) : streamField (streamOf b) = b := by revert b; decide

/-- The bits of a joined word, field by field. -/
theorem getLsbD_wordOf (f : Cmd32) (i : Nat) : (wordOf f).getLsbD i =
    if i < 6 then f.opc.getLsbD i else if i < 9 then f.rd.getLsbD (i - 6) else if i < 12 then f.rs1.getLsbD (i - 9)
    else if i < 15 then f.rs2.getLsbD (i - 12) else if i < 16 then f.s.getLsbD (i - 15)
    else f.resv.getLsbD (i - 16) := by
  have h : wordOf f = (f.resv ++ f.s ++ f.rs2 ++ f.rs1 ++ f.rd ++ f.opc : BitVec (16 + 1 + 3 + 3 + 3 + 6)) := rfl
  have h1 : i - 6 < 3 ↔ i < 9 := by omega
  have h2 : i - 9 < 3 ↔ i < 12 := by omega
  have h3 : i - 12 < 3 ↔ i < 15 := by omega
  have h4 : i - 15 < 1 ↔ i < 16 := by omega
  rw [h]
  simp only [BitVec.getLsbD_append]
  simp only [Nat.sub_sub, Nat.reduceAdd, h1, h2, h3, h4]

/-- Splitting a joined word gives the fields back. -/
@[simp] theorem fieldsOf_wordOf (f : Cmd32) : fieldsOf (wordOf f) = f := by
  obtain ⟨opc, rd, rs1, rs2, s, resv⟩ := f
  simp only [fieldsOf, Cmd32.mk.injEq]
  refine ⟨?_, ?_, ?_, ?_, ?_, ?_⟩ <;>
    (apply BitVec.eq_of_getLsbD_eq; intro i hi
     simp only [BitVec.getLsbD_extractLsb', getLsbD_wordOf, hi, decide_true, Bool.true_and]
     repeat' split
     all_goals first | omega | (congr 1; omega))

/-- Joining the fields of a word gives the word back. -/
@[simp] theorem wordOf_fieldsOf (w : Cmd) : wordOf (fieldsOf w) = w := by
  apply BitVec.eq_of_getLsbD_eq
  intro i hi
  simp only [getLsbD_wordOf, fieldsOf, BitVec.getLsbD_extractLsb']
  repeat' split
  all_goals
    rw [decide_eq_true (by omega), Bool.true_and]
    congr 1; omega

@[simp] theorem fieldsOf_encode (i : Instr) : fieldsOf (encode i) = encodeFields i := fieldsOf_wordOf _

theorem whenUnusedZero_ok {b : Bool} {i j : Instr} : whenUnusedZero b i = .ok j ↔ b = true ∧ i = j := by
  cases b <;> simp [whenUnusedZero]

theorem decode_ok {w : Cmd} {i : Instr} :
    decode w = .ok i ↔ (fieldsOf w).resv = 0 ∧ decodeFields (fieldsOf w) = .ok i := by
  unfold decode; split <;> simp_all

end Sys2Proof
end

