-- ==== Sys2Proof/Laws/State.lean ====
section
/-! SUPPORT. One lemma per field of State per update, and per view (register, stream, SEEDED bit) an update leaves alone, so
that no later proof unfolds a record update. -/

namespace Sys2Proof.Machine

@[simp] theorem State.setReg_x (s : State) (i : RegIdx) (v : XWord) : (s.setReg i v).x = s.x.set i.val v := rfl
@[simp] theorem State.setReg_streams (s : State) (i : RegIdx) (v : XWord) : (s.setReg i v).streams = s.streams := rfl
@[simp] theorem State.setReg_seeded (s : State) (i : RegIdx) (v : XWord) : (s.setReg i v).seeded = s.seeded := rfl
@[simp] theorem State.setReg_fault (s : State) (i : RegIdx) (v : XWord) : (s.setReg i v).fault = s.fault := rfl
@[simp] theorem State.setReg_cause (s : State) (i : RegIdx) (v : XWord) : (s.setReg i v).cause = s.cause := rfl
@[simp] theorem State.setReg_fcmd (s : State) (i : RegIdx) (v : XWord) : (s.setReg i v).fcmd = s.fcmd := rfl
@[simp] theorem State.setReg_rom (s : State) (i : RegIdx) (v : XWord) : (s.setReg i v).rom = s.rom := rfl
@[simp] theorem State.setReg_brackets (s : State) (i : RegIdx) (v : XWord) : (s.setReg i v).brackets = s.brackets := rfl
@[simp] theorem State.setReg_port (s : State) (i : RegIdx) (v : XWord) : (s.setReg i v).port = s.port := rfl
@[simp] theorem State.setReg_reply (s : State) (i : RegIdx) (v : XWord) : (s.setReg i v).reply = s.reply := rfl
@[simp] theorem State.setReg_stream (s : State) (i : RegIdx) (v : XWord) (j : StreamIdx) : (s.setReg i v).stream j = s.stream j := rfl
@[simp] theorem State.setReg_isSeeded (s : State) (i : RegIdx) (v : XWord) (j : StreamIdx) : (s.setReg i v).isSeeded j = s.isSeeded j := rfl

@[simp] theorem State.setStream_x (s : State) (k : StreamIdx) (st : GenStream) : (s.setStream k st).x = s.x := rfl
@[simp] theorem State.setStream_streams (s : State) (k : StreamIdx) (st : GenStream) : (s.setStream k st).streams = s.streams.set k.val st := rfl
@[simp] theorem State.setStream_seeded (s : State) (k : StreamIdx) (st : GenStream) : (s.setStream k st).seeded = s.seeded := rfl
@[simp] theorem State.setStream_fault (s : State) (k : StreamIdx) (st : GenStream) : (s.setStream k st).fault = s.fault := rfl
@[simp] theorem State.setStream_cause (s : State) (k : StreamIdx) (st : GenStream) : (s.setStream k st).cause = s.cause := rfl
@[simp] theorem State.setStream_fcmd (s : State) (k : StreamIdx) (st : GenStream) : (s.setStream k st).fcmd = s.fcmd := rfl
@[simp] theorem State.setStream_rom (s : State) (k : StreamIdx) (st : GenStream) : (s.setStream k st).rom = s.rom := rfl
@[simp] theorem State.setStream_brackets (s : State) (k : StreamIdx) (st : GenStream) : (s.setStream k st).brackets = s.brackets := rfl
@[simp] theorem State.setStream_port (s : State) (k : StreamIdx) (st : GenStream) : (s.setStream k st).port = s.port := rfl
@[simp] theorem State.setStream_reply (s : State) (k : StreamIdx) (st : GenStream) : (s.setStream k st).reply = s.reply := rfl
@[simp] theorem State.setStream_reg (s : State) (k : StreamIdx) (st : GenStream) (r : RegIdx) : (s.setStream k st).reg r = s.reg r := rfl
@[simp] theorem State.setStream_isSeeded (s : State) (k : StreamIdx) (st : GenStream) (j : StreamIdx) : (s.setStream k st).isSeeded j = s.isSeeded j := rfl

@[simp] theorem State.markSeeded_x (s : State) (k : StreamIdx) : (s.markSeeded k).x = s.x := rfl
@[simp] theorem State.markSeeded_streams (s : State) (k : StreamIdx) : (s.markSeeded k).streams = s.streams := rfl
@[simp] theorem State.markSeeded_seeded (s : State) (k : StreamIdx) : (s.markSeeded k).seeded = s.seeded.set k.val true := rfl
@[simp] theorem State.markSeeded_fault (s : State) (k : StreamIdx) : (s.markSeeded k).fault = s.fault := rfl
@[simp] theorem State.markSeeded_cause (s : State) (k : StreamIdx) : (s.markSeeded k).cause = s.cause := rfl
@[simp] theorem State.markSeeded_fcmd (s : State) (k : StreamIdx) : (s.markSeeded k).fcmd = s.fcmd := rfl
@[simp] theorem State.markSeeded_rom (s : State) (k : StreamIdx) : (s.markSeeded k).rom = s.rom := rfl
@[simp] theorem State.markSeeded_brackets (s : State) (k : StreamIdx) : (s.markSeeded k).brackets = s.brackets := rfl
@[simp] theorem State.markSeeded_port (s : State) (k : StreamIdx) : (s.markSeeded k).port = s.port := rfl
@[simp] theorem State.markSeeded_reply (s : State) (k : StreamIdx) : (s.markSeeded k).reply = s.reply := rfl
@[simp] theorem State.markSeeded_reg (s : State) (k : StreamIdx) (r : RegIdx) : (s.markSeeded k).reg r = s.reg r := rfl
@[simp] theorem State.markSeeded_stream (s : State) (k : StreamIdx) (j : StreamIdx) : (s.markSeeded k).stream j = s.stream j := rfl

@[simp] theorem State.raise_x (s : State) (c : Cause) (w : Cmd) : (s.raise c w).x = s.x := rfl
@[simp] theorem State.raise_streams (s : State) (c : Cause) (w : Cmd) : (s.raise c w).streams = s.streams := rfl
@[simp] theorem State.raise_seeded (s : State) (c : Cause) (w : Cmd) : (s.raise c w).seeded = s.seeded := rfl
@[simp] theorem State.raise_fault (s : State) (c : Cause) (w : Cmd) : (s.raise c w).fault = true := rfl
@[simp] theorem State.raise_cause (s : State) (c : Cause) (w : Cmd) : (s.raise c w).cause = c.code := rfl
@[simp] theorem State.raise_fcmd (s : State) (c : Cause) (w : Cmd) : (s.raise c w).fcmd = w := rfl
@[simp] theorem State.raise_rom (s : State) (c : Cause) (w : Cmd) : (s.raise c w).rom = s.rom := rfl
@[simp] theorem State.raise_brackets (s : State) (c : Cause) (w : Cmd) : (s.raise c w).brackets = s.brackets := rfl
@[simp] theorem State.raise_port (s : State) (c : Cause) (w : Cmd) : (s.raise c w).port = s.port := rfl
@[simp] theorem State.raise_reply (s : State) (c : Cause) (w : Cmd) : (s.raise c w).reply = s.reply := rfl
@[simp] theorem State.raise_reg (s : State) (c : Cause) (w : Cmd) (r : RegIdx) : (s.raise c w).reg r = s.reg r := rfl
@[simp] theorem State.raise_stream (s : State) (c : Cause) (w : Cmd) (j : StreamIdx) : (s.raise c w).stream j = s.stream j := rfl
@[simp] theorem State.raise_isSeeded (s : State) (c : Cause) (w : Cmd) (j : StreamIdx) : (s.raise c w).isSeeded j = s.isSeeded j := rfl

@[simp] theorem State.withReply_x (s : State) (r : Option XWord) : (s.withReply r).x = s.x := rfl
@[simp] theorem State.withReply_streams (s : State) (r : Option XWord) : (s.withReply r).streams = s.streams := rfl
@[simp] theorem State.withReply_seeded (s : State) (r : Option XWord) : (s.withReply r).seeded = s.seeded := rfl
@[simp] theorem State.withReply_fault (s : State) (r : Option XWord) : (s.withReply r).fault = s.fault := rfl
@[simp] theorem State.withReply_cause (s : State) (r : Option XWord) : (s.withReply r).cause = s.cause := rfl
@[simp] theorem State.withReply_fcmd (s : State) (r : Option XWord) : (s.withReply r).fcmd = s.fcmd := rfl
@[simp] theorem State.withReply_rom (s : State) (r : Option XWord) : (s.withReply r).rom = s.rom := rfl
@[simp] theorem State.withReply_brackets (s : State) (r : Option XWord) : (s.withReply r).brackets = s.brackets := rfl
@[simp] theorem State.withReply_port (s : State) (r : Option XWord) : (s.withReply r).port = s.port := rfl
@[simp] theorem State.withReply_reply (s : State) (r : Option XWord) : (s.withReply r).reply = r := rfl
@[simp] theorem State.withReply_reg (s : State) (r : Option XWord) (i : RegIdx) : (s.withReply r).reg i = s.reg i := rfl
@[simp] theorem State.withReply_stream (s : State) (r : Option XWord) (j : StreamIdx) : (s.withReply r).stream j = s.stream j := rfl
@[simp] theorem State.withReply_isSeeded (s : State) (r : Option XWord) (j : StreamIdx) : (s.withReply r).isSeeded j = s.isSeeded j := rfl

@[simp] theorem State.withPort_x (s : State) (ops : List HostOp) : (s.withPort ops).x = s.x := rfl
@[simp] theorem State.withPort_streams (s : State) (ops : List HostOp) : (s.withPort ops).streams = s.streams := rfl
@[simp] theorem State.withPort_seeded (s : State) (ops : List HostOp) : (s.withPort ops).seeded = s.seeded := rfl
@[simp] theorem State.withPort_fault (s : State) (ops : List HostOp) : (s.withPort ops).fault = s.fault := rfl
@[simp] theorem State.withPort_cause (s : State) (ops : List HostOp) : (s.withPort ops).cause = s.cause := rfl
@[simp] theorem State.withPort_fcmd (s : State) (ops : List HostOp) : (s.withPort ops).fcmd = s.fcmd := rfl
@[simp] theorem State.withPort_rom (s : State) (ops : List HostOp) : (s.withPort ops).rom = s.rom := rfl
@[simp] theorem State.withPort_brackets (s : State) (ops : List HostOp) : (s.withPort ops).brackets = s.brackets := rfl
@[simp] theorem State.withPort_port (s : State) (ops : List HostOp) : (s.withPort ops).port = ops := rfl
@[simp] theorem State.withPort_reply (s : State) (ops : List HostOp) : (s.withPort ops).reply = s.reply := rfl
@[simp] theorem State.withPort_reg (s : State) (ops : List HostOp) (r : RegIdx) : (s.withPort ops).reg r = s.reg r := rfl
@[simp] theorem State.withPort_stream (s : State) (ops : List HostOp) (j : StreamIdx) : (s.withPort ops).stream j = s.stream j := rfl
@[simp] theorem State.withPort_isSeeded (s : State) (ops : List HostOp) (j : StreamIdx) : (s.withPort ops).isSeeded j = s.isSeeded j := rfl

@[simp] theorem State.setInt_x (s : State) (i : RegIdx) (v : Int) : (s.setInt i v).x = s.x.set i.val (pattern v) := rfl
@[simp] theorem State.setInt_streams (s : State) (i : RegIdx) (v : Int) : (s.setInt i v).streams = s.streams := rfl
@[simp] theorem State.setInt_seeded (s : State) (i : RegIdx) (v : Int) : (s.setInt i v).seeded = s.seeded := rfl
@[simp] theorem State.setInt_fault (s : State) (i : RegIdx) (v : Int) : (s.setInt i v).fault = s.fault := rfl
@[simp] theorem State.setInt_cause (s : State) (i : RegIdx) (v : Int) : (s.setInt i v).cause = s.cause := rfl
@[simp] theorem State.setInt_fcmd (s : State) (i : RegIdx) (v : Int) : (s.setInt i v).fcmd = s.fcmd := rfl
@[simp] theorem State.setInt_rom (s : State) (i : RegIdx) (v : Int) : (s.setInt i v).rom = s.rom := rfl
@[simp] theorem State.setInt_brackets (s : State) (i : RegIdx) (v : Int) : (s.setInt i v).brackets = s.brackets := rfl
@[simp] theorem State.setInt_port (s : State) (i : RegIdx) (v : Int) : (s.setInt i v).port = s.port := rfl
@[simp] theorem State.setInt_reply (s : State) (i : RegIdx) (v : Int) : (s.setInt i v).reply = s.reply := rfl
@[simp] theorem State.setInt_stream (s : State) (i : RegIdx) (v : Int) (j : StreamIdx) : (s.setInt i v).stream j = s.stream j := rfl
@[simp] theorem State.setInt_isSeeded (s : State) (i : RegIdx) (v : Int) (j : StreamIdx) : (s.setInt i v).isSeeded j = s.isSeeded j := rfl

@[simp] theorem State.clear_x (s : State) : (s.clear).x = Vector.replicate 8 0 := rfl
@[simp] theorem State.clear_streams (s : State) : (s.clear).streams = Vector.replicate 2 ⟨0, 0, 0, 0⟩ := rfl
@[simp] theorem State.clear_seeded (s : State) : (s.clear).seeded = Vector.replicate 2 false := rfl
@[simp] theorem State.clear_fault (s : State) : (s.clear).fault = false := rfl
@[simp] theorem State.clear_cause (s : State) : (s.clear).cause = 0 := rfl
@[simp] theorem State.clear_fcmd (s : State) : (s.clear).fcmd = 0 := rfl
@[simp] theorem State.clear_rom (s : State) : (s.clear).rom = s.rom := rfl
@[simp] theorem State.clear_brackets (s : State) : (s.clear).brackets = s.brackets := rfl
@[simp] theorem State.clear_port (s : State) : (s.clear).port = s.port := rfl
@[simp] theorem State.clear_reply (s : State) : (s.clear).reply = none := rfl

end Sys2Proof.Machine
end

