-- ==== Sys2Proof/Laws/Ops.lean ====
section
/-! SUPPORT. What each shared operation does: reading back a write, the reset values, numbers and patterns, and the end
of a fixed-point command. -/

namespace Sys2Proof.Machine

@[simp] theorem State.reg_setReg_self (s : State) (i : RegIdx) (v : XWord) : (s.setReg i v).reg i = v := by
  simp [State.reg]

theorem State.reg_setReg_ne (s : State) {i j : RegIdx} (v : XWord) (h : j ≠ i) : (s.setReg i v).reg j = s.reg j := by
  have : i.val ≠ j.val := fun e => h (Fin.ext e.symm)
  simp [State.reg, Vector.getElem_set_ne _ _ this]

@[simp] theorem State.reg_setInt_self (s : State) (i : RegIdx) (v : Int) : (s.setInt i v).reg i = pattern v :=
  s.reg_setReg_self i _

theorem State.reg_setInt_ne (s : State) {i j : RegIdx} (v : Int) (h : j ≠ i) : (s.setInt i v).reg j = s.reg j :=
  s.reg_setReg_ne _ h

@[simp] theorem State.stream_setStream_self (s : State) (k : StreamIdx) (st : GenStream) :
    (s.setStream k st).stream k = st := by
  simp [State.stream]

theorem State.stream_setStream_ne (s : State) {k j : StreamIdx} (st : GenStream) (h : j ≠ k) :
    (s.setStream k st).stream j = s.stream j := by
  have : k.val ≠ j.val := fun e => h (Fin.ext e.symm)
  simp [State.stream, Vector.getElem_set_ne _ _ this]

@[simp] theorem State.isSeeded_markSeeded_self (s : State) (k : StreamIdx) : (s.markSeeded k).isSeeded k = true := by
  simp [State.isSeeded]

theorem State.isSeeded_markSeeded_ne (s : State) {k j : StreamIdx} (h : j ≠ k) :
    (s.markSeeded k).isSeeded j = s.isSeeded j := by
  have : k.val ≠ j.val := fun e => h (Fin.ext e.symm)
  simp [State.isSeeded, Vector.getElem_set_ne _ _ this]

@[simp] theorem State.reg_clear (s : State) (i : RegIdx) : s.clear.reg i = 0 := by simp [State.reg]

@[simp] theorem State.stream_clear (s : State) (k : StreamIdx) : s.clear.stream k = ⟨0, 0, 0, 0⟩ := by
  simp [State.stream]

@[simp] theorem State.isSeeded_clear (s : State) (k : StreamIdx) : s.clear.isSeeded k = false := by
  simp [State.isSeeded]

theorem fits64_iff (v : Int) : fits64 v = true ↔ -9223372036854775808 ≤ v ∧ v ≤ 9223372036854775807 := by
  simp [fits64]

/-- A number that fits 64 bits is read back from the pattern it was written as. -/
theorem sval_pattern {v : Int} (h : fits64 v = true) : sval (pattern v) = v := by
  have := (fits64_iff v).mp h
  rw [sval, pattern, BitVec.toInt_ofInt_eq_self] <;> omega

/-- The signed reading of a register fits 64 bits. -/
theorem fits64_sval (p : XWord) : fits64 (sval p) = true := by
  have h1 := BitVec.toInt_lt (x := p)
  have h2 := BitVec.le_toInt (x := p)
  rw [fits64_iff, sval]; omega

theorem pattern_sval (p : XWord) : pattern (sval p) = p := BitVec.ofInt_toInt

theorem finish_fits (s : State) (rd : RegIdx) (w : Cmd) {v : Int} (h : fits64 v = true) :
    finish s rd w (some v) = .next (s.setInt rd v) := by simp [finish, h]

theorem finish_overflow (s : State) (rd : RegIdx) (w : Cmd) {v : Int} (h : fits64 v = false) :
    finish s rd w (some v) = .next (s.raise .overflow w) := by simp [finish, h]

theorem finish_none (s : State) (rd : RegIdx) (w : Cmd) : finish s rd w none = .next (s.raise .overflow w) := rfl

/-- Everything the end of a fixed-point command can do: it completes, with the result written or OVERFLOW taken. -/
theorem finish_cases (s : State) (rd : RegIdx) (w : Cmd) (r : Option Int) :
    (∃ v, r = some v ∧ fits64 v = true ∧ finish s rd w r = .next (s.setInt rd v)) ∨
    finish s rd w r = .next (s.raise .overflow w) := by
  cases r with
  | none => exact .inr rfl
  | some v =>
    cases h : fits64 v with
    | true => exact .inl ⟨v, rfl, h, finish_fits s rd w h⟩
    | false => exact .inr (finish_overflow s rd w h)

theorem Cause.code_injective {c d : Cause} (h : c.code = d.code) : c = d := by
  cases c <;> cases d <;> first | rfl | exact absurd h (by decide)

end Sys2Proof.Machine
end

