-- ==== Sys2Proof/Laws/Fixpt.lean ====
section
/-! SUPPORT. The fixed-point unit's shared operations: the power loop runs the accumulation of R57, and the bisection
unfolded once. -/

namespace Sys2Proof.Machine

theorem fits64_eq_true {v : Int} : fits64 v = true ↔ Fits v := by
  rw [fits64_iff, Fits]; norm_num

theorem fixMul_eq (x y : Int) : fixMul x y = (x * y).tdiv 65536 := rfl

theorem fixDiv_eq (x y : Int) : fixDiv x y = (x * 65536).tdiv y := rfl

theorem fixRound_eq (x : Int) : fixRound x =
    if 32768 ≤ x.tmod 65536 ∨ x.tmod 65536 ≤ -32768 then x.tdiv 65536 + x.sign else x.tdiv 65536 := rfl

theorem powNext_fits {base : Int} {p : Int × Int} (h : Fits (powStep base p).1) :
    powNext base p = some (powStep base p) := if_pos (fits64_eq_true.mpr h)

theorem powNext_overflow {base : Int} {p : Int × Int} (h : ¬ Fits (powStep base p).1) : powNext base p = none :=
  if_neg fun e => h (fits64_eq_true.mp e)

/-- One step of the accumulation that answers a pair answers `powStep`'s, and its running result fits. -/
theorem powNext_some {base : Int} {p q : Int × Int} (h : powNext base p = some q) :
    powStep base p = q ∧ Fits q.1 := by
  by_cases hf : Fits (powStep base p).1
  · rw [powNext_fits hf] at h; cases h; exact ⟨rfl, hf⟩
  · rw [powNext_overflow hf] at h; cases h

/-- Two states that a function swaps are all it reaches from either. -/
theorem iterate_swap {α : Type} {f : α → α} {p q : α} (hp : f p = q) (hq : f q = p) (m : Nat) :
    f^[m] q = if m % 2 = 0 then q else p := by
  induction m with
  | zero => rfl
  | succ m ih =>
    rw [Function.iterate_succ_apply', ih]
    split
    · rw [hq, if_neg (by omega)]
    · rw [hp, if_pos (by omega)]

/-- No step of the accumulation fails: the power loop ends with the accumulated pair. -/
theorem powLoop_fits {base : Int} {m : Nat} {p : Int × Int}
    (h : ∀ j, 1 ≤ j → j ≤ m → Fits ((powStep base)^[j] p).1) :
    powLoop base m p = some ((powStep base)^[m] p) := by
  induction m generalizing p with
  | zero => rfl
  | succ m ih =>
    simp only [powLoop, powNext_fits (h 1 (by omega) (by omega))]
    split
    · rename_i hc
      rw [Function.iterate_succ_apply, iterate_swap rfl (powNext_some hc).1]
    · exact ih fun j h1 h2 => h (j + 1) (by omega) (by omega)

/-- A step of the accumulation fails: the power loop ends without a result. -/
theorem powLoop_overflow {base : Int} {m j : Nat} {p : Int × Int} (h1 : 1 ≤ j) (h2 : j ≤ m)
    (h : ¬ Fits ((powStep base)^[j] p).1) : powLoop base m p = none := by
  induction m generalizing p j with
  | zero => omega
  | succ m ih =>
    obtain ⟨j, rfl⟩ : ∃ i, j = i + 1 := ⟨j - 1, by omega⟩
    rw [Function.iterate_succ_apply] at h
    by_cases hf : Fits (powStep base p).1
    · simp only [powLoop, powNext_fits hf]
      split
      · rename_i hc
        rw [iterate_swap rfl (powNext_some hc).1] at h
        split at h
        · exact absurd hf h
        · exact absurd (powNext_some hc).2 h
      · rcases j with _ | j
        · exact absurd hf h
        · exact ih (by omega) (by omega) h
    · simp only [powLoop, powNext_overflow hf]

/-- One round of the bisection. -/
theorem bisect_succ (v : Int) (fuel : Nat) (lower upper cand : Int) :
    bisect v (fuel + 1) lower upper cand =
      if upper = lower + 1 then cand
      else if fixMul ((upper + lower) / 2) ((upper + lower) / 2) - v = 0 then (upper + lower) / 2
      else if 0 < fixMul ((upper + lower) / 2) ((upper + lower) / 2) - v
      then bisect v fuel lower ((upper + lower) / 2) ((upper + lower) / 2)
      else bisect v fuel ((upper + lower) / 2) upper ((upper + lower) / 2) := rfl

/-- The default table of brackets holds R55's formula at every bit position it can be read at. -/
theorem bracketRead_default : ∀ m, 1 ≤ m → m ≤ 64 → bracketRead Config.sqrtBrackets m = Config.sqrtBracket m := by
  have h : ∀ i : Fin 64, bracketRead Config.sqrtBrackets (i.val + 1) = Config.sqrtBracket (i.val + 1) := by decide
  intro m h1 h2
  obtain ⟨i, rfl⟩ : ∃ i, m = i + 1 := ⟨m - 1, by omega⟩
  exact h ⟨i, by omega⟩

/-- From a bracket of positive width, with that much fuel, the bisection reaches what R55's loop reaches. -/
theorem bisect_bisects (v : Int) (fuel : Nat) : ∀ lower upper cand : Int, lower < upper →
    (upper - lower).toNat ≤ fuel → Bisects v lower upper cand (bisect v fuel lower upper cand) := by
  induction fuel with
  | zero => intro lower upper cand h1 h2; omega
  | succ fuel ih =>
    intro lower upper cand h1 h2
    rw [bisect_succ]
    split
    · rename_i h; subst h; exact .adjacent _ _
    · rename_i h
      split
      · rename_i hf; exact .hit _ _ _ _ h rfl (by rw [fixMul_eq] at hf; omega)
      · rename_i hf
        split
        · rename_i hg
          exact .tooHigh _ _ _ _ _ h rfl (by rw [fixMul_eq] at hg; omega) (ih _ _ _ (by omega) (by omega))
        · rename_i hg
          exact .tooLow _ _ _ _ _ h rfl (by rw [fixMul_eq] at hg hf; omega) (ih _ _ _ (by omega) (by omega))

theorem fixSqrt_nonneg (bracket : Nat → Bracket) (rom : Vector XWord 128) (v : Nat) :
    fixSqrt bracket rom v = sqrtNonneg bracket rom v := by
  simp [fixSqrt, show ¬ (v : Int) < 0 by omega]

theorem sqrtNonneg_table {bracket : Nat → Bracket} {rom : Vector XWord 128} {v : Nat} (h : isTableInput v = true) :
    sqrtNonneg bracket rom v = sval (romRead rom (tableIndex v)) := by simp [sqrtNonneg, h]

theorem sqrtNonneg_bisect {bracket : Nat → Bracket} {rom : Vector XWord 128} {v : Nat}
    (h : isTableInput v = false) :
    sqrtNonneg bracket rom v = bisect v ((bracket (msbpos v)).upper - (bracket (msbpos v)).lower)
      (bracket (msbpos v)).lower (bracket (msbpos v)).upper 0 := by simp [sqrtNonneg, h]

/-- Off the table the root is what R55's bisection reaches, whatever the brackets. -/
theorem sqrtNonneg_bisects {bracket : Nat → Bracket} {rom : Vector XWord 128} {v : Nat} (h : isTableInput v = false) :
    Bisects v (bracket (msbpos v)).lower (bracket (msbpos v)).upper 0 (sqrtNonneg bracket rom v) := by
  have hw := (bracket (msbpos v)).width_pos
  rw [sqrtNonneg_bisect h]
  exact bisect_bisects _ _ _ _ _ (by omega) (by omega)

end Sys2Proof.Machine
end

