-- ==== Sys2Proof/Laws/Generator.lean ====
section
/-! SUPPORT. The generator engine's shared operations: discarding is iterating the step, the rejection search finds the
first accepted attempt, and everything the part shared by RANGE and IRANGE can do. -/

namespace Sys2Proof.Machine

theorem nthState_succ (st : GenStream) (k : Nat) : nthState st (k + 1) = nthState (genStep st).1 k := rfl

theorem nthOutput_zero (st : GenStream) : nthOutput st 0 = (genStep st).2 := rfl

theorem nthOutput_succ (st : GenStream) (k : Nat) : nthOutput st (k + 1) = nthOutput (genStep st).1 k := rfl

theorem nthState_succ_end (st : GenStream) (k : Nat) : nthState st (k + 1) = (genStep (nthState st k)).1 :=
  Function.iterate_succ_apply' _ k st

theorem nthState_add (st : GenStream) (j k : Nat) : nthState st (j + k) = nthState (nthState st k) j :=
  Function.iterate_add_apply _ j k st

theorem discard_eq (k : Nat) (st : GenStream) : discard k st = nthState st k := by
  induction k generalizing st with
  | zero => rfl
  | succ k ih => exact ih _

/-- The number the four words of a stream make up. -/
def streamCode (st : GenStream) : Nat :=
  st.a.toNat + 2 ^ 32 * (st.b.toNat + 2 ^ 32 * (st.c.toNat + 2 ^ 32 * st.d.toNat))

theorem streamCode_lt (st : GenStream) : streamCode st < Config.streamStates := by
  have ha := st.a.isLt
  have hb := st.b.isLt
  have hc := st.c.isLt
  have hd := st.d.isLt
  simp only [streamCode, Config.streamStates]
  omega

theorem streamCode_injective : Function.Injective streamCode := by
  rintro ⟨a, b, c, d⟩ ⟨a', b', c', d'⟩ h
  have := a.isLt; have := b.isLt; have := c.isLt; have := d.isLt
  have := a'.isLt; have := b'.isLt; have := c'.isLt; have := d'.isLt
  simp only [streamCode] at h
  congr 1 <;> apply BitVec.eq_of_toNat_eq <;> omega

/-- Up to the first accepted attempt no stream state repeats: a repeat would have been accepted before. -/
theorem FirstAccepted.nthState_injective {n : Nat} {st : GenStream} {j : Nat} (h : FirstAccepted n st j) {a b : Nat}
    (hab : a < b) (hb : b ≤ j) : nthState st a ≠ nthState st b := by
  intro he
  refine h.2 (j - (b - a)) (by omega) ?_
  have : nthOutput st (j - (b - a)) = nthOutput st j := by
    rw [nthOutput, nthOutput, show j - (b - a) = (j - b) + a by omega, nthState_add, he, ← nthState_add,
      show j - b + b = j by omega]
  rw [this]
  exact h.1

/-- The first accepted attempt comes within as many attempts as there are stream states, so the search's fuel decides
whether the rejection loop ends (R49; log 4). -/
theorem FirstAccepted.lt_streamStates {n : Nat} {st : GenStream} {j : Nat} (h : FirstAccepted n st j) :
    j < Config.streamStates := by
  have hcode := streamCode_lt
  generalize Config.streamStates = N at hcode ⊢
  have hinj : Function.Injective fun m : Fin (j + 1) => (⟨streamCode (nthState st m), hcode _⟩ : Fin N) := by
    intro a b hab
    have hs : nthState st a = nthState st b := streamCode_injective (Fin.mk.inj hab)
    rcases lt_trichotomy a.val b.val with hl | hl | hl
    · exact absurd hs (h.nthState_injective hl (by omega))
    · exact Fin.ext hl
    · exact absurd hs.symm (h.nthState_injective hl (by omega))
  have := Fintype.card_le_of_injective _ hinj
  simp only [Fintype.card_fin] at this
  omega
/-- The rejection search is the first accepted attempt within its fuel. -/
theorem rangedSearch_some {n fuel : Nat} {st : GenStream} {j : Nat} (hj : FirstAccepted n st j) (hf : j < fuel) :
    rangedSearch n (0xFFFFFFFF / n) fuel st = some (quotientOf n (nthOutput st j), nthState st (j + 1)) := by
  induction fuel generalizing st j with
  | zero => omega
  | succ fuel ih =>
    obtain ⟨acc, rej⟩ := hj
    cases j with
    | zero =>
      have acc : (genStep st).2.toNat / (0xFFFFFFFF / n) < n := acc
      simp only [rangedSearch, acc, if_true]; rfl
    | succ j =>
      have h0 : ¬ (genStep st).2.toNat / (0xFFFFFFFF / n) < n := rej 0 (Nat.succ_pos j)
      simp only [rangedSearch, h0, if_false]
      exact ih ⟨acc, fun m hm => rej (m + 1) (by omega)⟩ (by omega)

/-- Whatever the rejection search answers, it is the first accepted attempt; and it answers nothing only if every attempt
within its fuel is rejected. -/
theorem rangedSearch_cases (n fuel : Nat) (st : GenStream) :
    (∃ j, j < fuel ∧ FirstAccepted n st j ∧
      rangedSearch n (0xFFFFFFFF / n) fuel st = some (quotientOf n (nthOutput st j), nthState st (j + 1))) ∨
    ((∀ j < fuel, ¬ Accepts n (nthOutput st j)) ∧ rangedSearch n (0xFFFFFFFF / n) fuel st = none) := by
  induction fuel generalizing st with
  | zero => exact .inr ⟨by omega, rfl⟩
  | succ fuel ih =>
    by_cases h0 : Accepts n (nthOutput st 0)
    · have hfa : FirstAccepted n st 0 := ⟨h0, by omega⟩
      exact .inl ⟨0, by omega, hfa, rangedSearch_some hfa (by omega)⟩
    · have hstep : rangedSearch n (0xFFFFFFFF / n) (fuel + 1) st
          = rangedSearch n (0xFFFFFFFF / n) fuel (genStep st).1 := by
        have h0 : ¬ (genStep st).2.toNat / (0xFFFFFFFF / n) < n := h0
        simp only [rangedSearch, h0, if_false]
      rw [hstep]
      rcases ih (genStep st).1 with ⟨j, hj, hfa, he⟩ | ⟨hall, he⟩
      · refine .inl ⟨j + 1, by omega, ⟨hfa.1, fun m hm => ?_⟩, he⟩
        cases m with
        | zero => exact h0
        | succ m => exact hfa.2 m (by omega)
      · refine .inr ⟨fun j hj => ?_, he⟩
        cases j with
        | zero => exact h0
        | succ j => exact hall j (by omega)

theorem rangedCore_eq (st : GenStream) (n : Nat) :
    rangedCore st n = rangedSearch n (0xFFFFFFFF / n) Config.streamStates st := by
  unfold rangedCore
  split
  · rename_i h
    rcases rangedSearch_cases n Config.streamStates st with ⟨j, -, hfa, -⟩ | ⟨-, he⟩
    · exact absurd hfa.1 (by simp [Accepts, h])
    · exact he.symm
  · rfl

/-- Everything the part shared by RANGE and IRANGE can do (R46, R47): fault on the interval, fault on the seeding,
complete with the first accepted attempt, or hang. -/
theorem rangedCommand_cases (rd : RegIdx) (k : StreamIdx) (base n : Int) (w : Cmd) (s : State) :
    ((n ≤ 0 ∨ 0xFFFFFFFF < n) ∧ rangedCommand rd k base n w s = .next (s.raise .rangeArg w)) ∨
    (1 ≤ n ∧ n ≤ 0xFFFFFFFF ∧ s.isSeeded k = false ∧
      rangedCommand rd k base n w s = .next (s.raise .unseeded w)) ∨
    (1 ≤ n ∧ n ≤ 0xFFFFFFFF ∧ s.isSeeded k = true ∧ ∃ j, FirstAccepted n.toNat (s.stream k) j ∧
      rangedCommand rd k base n w s = .next ((s.setStream k (nthState (s.stream k) (j + 1))).setInt rd
        (base + (quotientOf n.toNat (nthOutput (s.stream k) j) : Nat)))) ∨
    (1 ≤ n ∧ n ≤ 0xFFFFFFFF ∧ s.isSeeded k = true ∧
      (∀ j < Config.streamStates, ¬ Accepts n.toNat (nthOutput (s.stream k) j)) ∧
      rangedCommand rd k base n w s = .fault .hang) := by
  have hmax : (Config.rangeMax : Int) = 0xFFFFFFFF := rfl
  simp only [rangedCommand, hmax]
  by_cases hn : n ≤ 0 ∨ 0xFFFFFFFF < n
  · exact .inl ⟨hn, by rw [if_pos hn]⟩
  · have h1 : 1 ≤ n := by omega
    have h2 : n ≤ 0xFFFFFFFF := by omega
    rw [if_neg hn]
    refine .inr ?_
    cases hs : s.isSeeded k with
    | false => exact .inl ⟨h1, h2, rfl, by simp⟩
    | true =>
      refine .inr ?_
      rw [if_neg (by simp), rangedCore_eq]
      rcases rangedSearch_cases n.toNat Config.streamStates (s.stream k) with ⟨j, -, hfa, he⟩ | ⟨hall, he⟩
      · exact .inl ⟨h1, h2, rfl, j, hfa, by rw [he]⟩
      · exact .inr ⟨h1, h2, rfl, hall, by rw [he]⟩

end Sys2Proof.Machine
end

