-- ==== Sys2Proof/Laws/Step.lean ====
section
/-! SUPPORT. The step at the host port: what it is for each operation. -/

namespace Sys2Proof.Machine

theorem step_idle {s : State} (h : s.port = []) : step s = .next s := by simp [step, hostStep, h]

theorem step_perform {s : State} {op : HostOp} {rest : List HostOp} (h : s.port = op :: rest) :
    step s = perform op (s.withPort rest) := by simp [step, hostStep, h]

/-- Everything an issue can do: be ignored, run the command, or fault ILLEGAL (R17, R33, R63). -/
theorem hostIssue_cases (w : Cmd) (s : State) :
    (s.fault = true ∧ hostIssue w s = .next (s.withReply none)) ∨
    (s.fault = false ∧ ∃ i, decode w = .ok i ∧ hostIssue w s = exec i (s.withReply none)) ∨
    (s.fault = false ∧ ∃ e, decode w = .error e ∧ hostIssue w s = .next ((s.withReply none).raise .illegal w)) := by
  cases hf : s.fault with
  | true => exact .inl ⟨rfl, by simp [hostIssue, hf]⟩
  | false =>
    cases hd : decode w with
    | ok i => exact .inr (.inl ⟨rfl, i, rfl, by simp [hostIssue, hf, hd]⟩)
    | error e => exact .inr (.inr ⟨rfl, e, rfl, by simp [hostIssue, hf, hd]⟩)

/-- Everything a step can do that answers a next state: stay idle, perform an access or a reset, or issue. -/
theorem step_next_cases {s t : State} (h : step s = .next t) :
    (s.port = [] ∧ t = s) ∨
    ∃ op rest, s.port = op :: rest ∧
      ((∃ i v, op = .writeReg i v ∧ t = hostWriteReg i v (s.withPort rest)) ∨
       (∃ i, op = .readReg i ∧ t = hostReadReg i (s.withPort rest)) ∨
       (op = .readStatus ∧ t = hostReadStatus (s.withPort rest)) ∨
       (∃ k w, op = .readStream k w ∧ t = hostReadStream k w (s.withPort rest)) ∨
       (∃ w, op = .issue w ∧ hostIssue w (s.withPort rest) = .next t) ∨
       (op = .reset ∧ t = hostReset (s.withPort rest))) := by
  cases hp : s.port with
  | nil => rw [step_idle hp] at h; exact .inl ⟨rfl, (Host.Outcome.next.inj h).symm⟩
  | cons op rest =>
    rw [step_perform hp] at h
    refine .inr ⟨op, rest, rfl, ?_⟩
    cases op with
    | writeReg i v => exact .inl ⟨i, v, rfl, (Host.Outcome.next.inj h).symm⟩
    | readReg i => exact .inr (.inl ⟨i, rfl, (Host.Outcome.next.inj h).symm⟩)
    | readStatus => exact .inr (.inr (.inl ⟨rfl, (Host.Outcome.next.inj h).symm⟩))
    | readStream k w => exact .inr (.inr (.inr (.inl ⟨k, w, rfl, (Host.Outcome.next.inj h).symm⟩)))
    | issue w => exact .inr (.inr (.inr (.inr (.inl ⟨w, rfl, h⟩))))
    | reset => exact .inr (.inr (.inr (.inr (.inr ⟨rfl, (Host.Outcome.next.inj h).symm⟩))))

end Sys2Proof.Machine
end

