-- ==== Sys2Proof/Laws/Exec.lean ====
section
/-! SUPPORT. Everything a command can do, said once: it takes a fault its opcode may raise, or it is `Quiet`, that is it
writes its destination and at most moves the stream it names. -/

namespace Sys2Proof.Machine

/-- What a command that completes without a fault leaves unchanged, and the three things that can become of a stream. -/
structure Quiet (i : Instr) (s t : State) : Prop where
  fault : t.fault = s.fault
  cause : t.cause = s.cause
  fcmd : t.fcmd = s.fcmd
  rom : t.rom = s.rom
  brackets : t.brackets = s.brackets
  port : t.port = s.port
  reply : t.reply = s.reply
  regs : ∀ r, r ≠ i.dest → t.reg r = s.reg r
  /-- A stream is untouched, or named by the command and newly seeded, or named by it, seeded before and stepped on. -/
  streams : ∀ k,
    (t.stream k = s.stream k ∧ t.isSeeded k = s.isSeeded k) ∨
    (∃ rd rs1, i = .seed rd rs1 k ∧ s.reg rs1 ≠ 0 ∧ t.stream k = seedState (s.reg rs1) ∧ t.isSeeded k = true) ∨
    (i.stream? = some k ∧ s.isSeeded k = true ∧ t.isSeeded k = true ∧ ∃ j, t.stream k = nthState (s.stream k) j)

/-- Writing the destination alone is quiet. -/
theorem quiet_setReg {i : Instr} (s : State) (v : XWord) : Quiet i s (s.setReg i.dest v) where
  fault := rfl
  cause := rfl
  fcmd := rfl
  rom := rfl
  brackets := rfl
  port := rfl
  reply := rfl
  regs _ hr := State.reg_setReg_ne s v hr
  streams _ := .inl ⟨rfl, rfl⟩

/-- Stepping the named, seeded stream on and writing the destination is quiet. -/
theorem quiet_draw {i : Instr} {s : State} {k : StreamIdx} (hk : i.stream? = some k) (hs : s.isSeeded k = true)
    (j : Nat) (v : XWord) : Quiet i s ((s.setStream k (nthState (s.stream k) j)).setReg i.dest v) where
  fault := rfl
  cause := rfl
  fcmd := rfl
  rom := rfl
  brackets := rfl
  port := rfl
  reply := rfl
  regs _ hr := State.reg_setReg_ne _ v hr
  streams m := by
    by_cases e : m = k
    · subst e; exact .inr (.inr ⟨hk, hs, hs, j, by simp⟩)
    · exact .inl ⟨by simp [State.stream_setStream_ne _ _ e], rfl⟩

theorem finish_quiet {i : Instr} {s t : State} {r : Option Int}
    (h : finish s i.dest (encode i) r = .next t) : Quiet i s t ∨ t = s.raise .overflow (encode i) := by
  rcases finish_cases s i.dest (encode i) r with ⟨v, -, -, he⟩ | he <;> rw [he] at h <;> cases h
  · exact .inl (quiet_setReg s _)
  · exact .inr rfl

theorem rangedCommand_quiet {i : Instr} {s t : State} {k : StreamIdx} {base n : Int} (hk : i.stream? = some k)
    (h : rangedCommand i.dest k base n (encode i) s = .next t) :
    Quiet i s t ∨ t = s.raise .rangeArg (encode i) ∨ t = s.raise .unseeded (encode i) := by
  rcases rangedCommand_cases i.dest k base n (encode i) s with
    ⟨-, he⟩ | ⟨-, -, -, he⟩ | ⟨-, -, hs, j, -, he⟩ | ⟨-, -, -, -, he⟩ <;> rw [he] at h <;> cases h
  · exact .inr (.inl rfl)
  · exact .inr (.inr rfl)
  · exact .inl (quiet_draw hk hs (j + 1) _)

/-- Everything a command can do that answers a next state (R9, R60 to R62). -/
theorem exec_next_cases {i : Instr} {s t : State} (h : exec i s = .next t) :
    Quiet i s t ∨ ∃ c, mayRaise i c = true ∧ t = s.raise c (encode i) := by
  cases i with
  | seed rd rs1 k =>
    refine .inl ?_
    simp only [exec, execSeed] at h
    split at h
    · cases h; exact quiet_setReg (i := .seed rd rs1 k) s _
    · rename_i hz
      cases h
      have hne : s.reg rs1 ≠ 0 := fun h0 => hz (by simp [uval, h0])
      refine ⟨rfl, rfl, rfl, rfl, rfl, rfl, rfl, fun _ hr => State.reg_setReg_ne _ _ hr, fun m => ?_⟩
      by_cases e : m = k
      · subst e; exact .inr (.inl ⟨rd, rs1, rfl, hne, by simp, by simp⟩)
      · exact .inl ⟨by simp [State.stream_setStream_ne _ _ e], by simp [State.isSeeded_markSeeded_ne _ e]⟩
  | draw rd k =>
    simp only [exec, execDraw] at h
    split at h
    · cases h; exact .inr ⟨.unseeded, rfl, rfl⟩
    · rename_i hs
      cases h
      exact .inl (quiet_draw (i := .draw rd k) rfl (by simpa using hs) 1 _)
  | range rd rs1 k =>
    rcases rangedCommand_quiet (i := .range rd rs1 k) rfl h with h | h | h
    · exact .inl h
    · exact .inr ⟨.rangeArg, rfl, h⟩
    · exact .inr ⟨.unseeded, rfl, h⟩
  | irange rd rs1 rs2 k =>
    simp only [exec, execIrange] at h
    split at h
    · cases h; exact .inl (quiet_setReg (i := .irange rd rs1 rs2 k) s _)
    · rcases rangedCommand_quiet (i := .irange rd rs1 rs2 k) rfl h with h | h | h
      · exact .inl h
      · exact .inr ⟨.rangeArg, rfl, h⟩
      · exact .inr ⟨.unseeded, rfl, h⟩
  | fmul rd a b =>
    simp only [exec, execFmul] at h
    exact (finish_quiet (i := .fmul rd a b) h).imp id fun h => ⟨.overflow, rfl, h⟩
  | fdiv rd a b =>
    simp only [exec, execFdiv] at h
    split at h
    · cases h; exact .inr ⟨.divZero, rfl, rfl⟩
    · exact (finish_quiet (i := .fdiv rd a b) h).imp id fun h => ⟨.overflow, rfl, h⟩
  | fround rd a => cases h; exact .inl (quiet_setReg (i := .fround rd a) s _)
  | fsqrt rd a => cases h; exact .inl (quiet_setReg (i := .fsqrt rd a) s _)
  | fpow rd a b =>
    simp only [exec, execFpow] at h
    exact (finish_quiet (i := .fpow rd a b) h).imp id fun h => ⟨.overflow, rfl, h⟩

end Sys2Proof.Machine
end

