-- ==== Sys2Proof/Laws/PerInstr.lean ====
section
/-! SUPPORT. Facts about every command as syntax, one lemma per constructor: the fields of its word are a well-formed
CMD32 (R33) and its word matches its row of the opcode table under that row's mask (R32). -/

namespace Sys2Proof.Laws.Encoding

/-- The word of a command is legal by R33 and matches its row of R32's table of exact patterns. -/
def Statement (i : Instr) : Prop :=
  (fieldsOf (encode i)).wellFormed = true ∧ (matchOf i, maskOf i) ∈ opcodePatterns ∧ encode i &&& maskOf i = matchOf i

theorem seed (rd rs1 : RegIdx) (s : StreamIdx) : Statement (.seed rd rs1 s) := by
  revert rd rs1 s; unfold Statement; decide

theorem draw (rd : RegIdx) (s : StreamIdx) : Statement (.draw rd s) := by
  revert rd s; unfold Statement; decide

theorem range (rd rs1 : RegIdx) (s : StreamIdx) : Statement (.range rd rs1 s) := by
  revert rd rs1 s; unfold Statement; decide

theorem irange (rd rs1 rs2 : RegIdx) (s : StreamIdx) : Statement (.irange rd rs1 rs2 s) := by
  revert rd rs1 rs2 s; unfold Statement; decide

theorem fmul (rd rs1 rs2 : RegIdx) : Statement (.fmul rd rs1 rs2) := by
  revert rd rs1 rs2; unfold Statement; decide

theorem fdiv (rd rs1 rs2 : RegIdx) : Statement (.fdiv rd rs1 rs2) := by
  revert rd rs1 rs2; unfold Statement; decide

theorem fround (rd rs1 : RegIdx) : Statement (.fround rd rs1) := by
  revert rd rs1; unfold Statement; decide

theorem fsqrt (rd rs1 : RegIdx) : Statement (.fsqrt rd rs1) := by
  revert rd rs1; unfold Statement; decide

theorem fpow (rd rs1 rs2 : RegIdx) : Statement (.fpow rd rs1 rs2) := by
  revert rd rs1 rs2; unfold Statement; decide

end Sys2Proof.Laws.Encoding
end

