-- ==== Sys2Proof/Tests/Slice0.lean ====
section
/-! SUPPORT. Tests of the model on small states, each expected value taken from spec/95_test_vectors.md or worked out by
hand from a rule, and for every statement with hypotheses a witness that meets them. -/

namespace Sys2Proof.Tests

open Sys2Proof Sys2Proof.Machine

/-- The reset state with `x1` and `x2` loaded. -/
def loaded (r1 r2 : XWord) : State := (State.reset.setReg 1 r1).setReg 2 r2

/-- `s` with stream 0 seeded. -/
def seeded (seed : XWord) (s : State) : State := (s.setStream 0 (seedState seed)).markSeeded 0

/-- A state with the fault of `draw x3, s1` on an unseeded stream latched. -/
def faulty : State := State.reset.raise .unseeded 0x000080C2

/-- The state an outcome goes on in, or reset. -/
def stateOf : Host.Outcome State Fault Refusal → State
  | .next s => s
  | _ => State.reset

/-- An outcome is a next state. -/
def goesOn : Host.Outcome State Fault Refusal → Bool
  | .next _ => true
  | _ => false

/-! ### WellFormed: one ill-formed word for each check of R33 -/

theorem test_wf_ok : Cmd32.wellFormed ⟨0x04, 4, 2, 3, 1, 0⟩ = true := by decide

theorem test_wf_undefined_opcode : Cmd32.opcodeDefined ⟨0x05, 0, 0, 0, 0, 0⟩ = false ∧
    Cmd32.wellFormed ⟨0x05, 0, 0, 0, 0, 0⟩ = false := by decide

theorem test_wf_reserved : Cmd32.reservedZero ⟨0x04, 0, 0, 0, 0, 0x8000⟩ = false ∧
    Cmd32.wellFormed ⟨0x04, 0, 0, 0, 0, 0x8000⟩ = false := by decide

theorem test_wf_unused_rs1 : Cmd32.unusedZero ⟨0x02, 1, 1, 0, 0, 0⟩ = false ∧
    Cmd32.wellFormed ⟨0x02, 1, 1, 0, 0, 0⟩ = false := by decide

theorem test_wf_unused_rs2 : Cmd32.unusedZero ⟨0x13, 0, 0, 1, 0, 0⟩ = false ∧
    Cmd32.wellFormed ⟨0x13, 0, 0, 1, 0, 0⟩ = false := by decide

theorem test_wf_unused_s : Cmd32.unusedZero ⟨0x10, 0, 0, 0, 1, 0⟩ = false ∧
    Cmd32.wellFormed ⟨0x10, 0, 0, 0, 1, 0⟩ = false := by decide

/-! ### Decoding: each command's word, written out in bits from R30: resv, s, rs2, rs1, rd, opc -/

theorem test_decode_seed : decode 0b0000000000000000_1_000_010_100_000001 = .ok (.seed 4 2 1) ∧
    encode (.seed 4 2 1) = 0x00008501 := by decide

theorem test_decode_draw : decode 0b0000000000000000_1_000_000_011_000010 = .ok (.draw 3 1) ∧
    encode (.draw 3 1) = 0x000080C2 := by decide

theorem test_decode_range : decode 0b0000000000000000_0_000_110_100_000011 = .ok (.range 4 6 0) ∧
    encode (.range 4 6 0) = 0x00000D03 := by decide

theorem test_decode_irange : decode 0b0000000000000000_0_011_010_100_000100 = .ok (.irange 4 2 3 0) ∧
    encode (.irange 4 2 3 0) = 0x00003504 := by decide

theorem test_decode_fmul : decode 0b0000000000000000_0_111_101_101_010000 = .ok (.fmul 5 5 7) ∧
    encode (.fmul 5 5 7) = 0x00007B50 := by decide

theorem test_decode_fdiv : decode 0b0000000000000000_0_011_010_101_010001 = .ok (.fdiv 5 2 3) ∧
    encode (.fdiv 5 2 3) = 0x00003551 := by decide

theorem test_decode_fround : decode 0b0000000000000000_0_000_110_111_010010 = .ok (.fround 7 6) ∧
    encode (.fround 7 6) = 0x00000DD2 := by decide

theorem test_decode_fsqrt : decode 0b0000000000000000_0_000_011_101_010011 = .ok (.fsqrt 5 3) ∧
    encode (.fsqrt 5 3) = 0x00000753 := by decide

theorem test_decode_fpow : decode 0b0000000000000000_0_010_001_100_010100 = .ok (.fpow 4 1 2) ∧
    encode (.fpow 4 1 2) = 0x00002314 := by decide

/-- The illegal words of 95_test_vectors.md 2.1, each with R33's objection. -/
theorem test_decode_illegal :
    decode 0x00000000 = .error .undefinedOpcode ∧ decode 0x00000005 = .error .undefinedOpcode ∧
    decode 0x0000000F = .error .undefinedOpcode ∧ decode 0x00000015 = .error .undefinedOpcode ∧
    decode 0x0000003F = .error .undefinedOpcode ∧ decode 0x00010201 = .error .reservedBits ∧
    decode 0x80000004 = .error .reservedBits ∧ decode 0xFFFFFFFF = .error .reservedBits ∧
    decode 0x00000242 = .error .unusedField ∧ decode 0x00007E02 = .error .unusedField ∧
    decode 0x00001001 = .error .unusedField ∧ decode 0x00008010 = .error .unusedField ∧
    decode 0x00001012 = .error .unusedField := by decide

theorem test_decodeTableWord : decodeTableWord 32 0x0000FFC4 = some (.irange 7 7 7 1) ∧
    decodeTableWord 32 0 = none := by decide

/-! ### Shared functions (95_test_vectors.md 2.2, 2.3) -/

theorem test_rotl32 : rotl32 0x80000001 27 = 0x0C000000 ∧ rotl32 0x12345678 17 = 0xACF02468 := by decide

theorem test_genStep : genStep ⟨1, 2, 3, 4⟩ = (⟨0x00060002, 0x00000007, 0xF0000005, 0xF0060003⟩, 0xF0060003) := by
  decide

theorem test_seedState : seedState 0x0123456789ABCDEF = ⟨0x71143BDF, 0x7EC7B8E1, 0x2E507F87, 0x9776EA8B⟩ := by decide

/-- The default bracket at both parities of the bit position (R55). -/
theorem test_sqrtBracket : (Config.sqrtBracket 30).lower = 4194304 ∧ (Config.sqrtBracket 30).upper = 8388608 ∧
    bracketRead State.reset.brackets 1 = ⟨128, 512, by decide⟩ ∧
    (bracketRead State.reset.brackets 64).upper = 2 ^ 40 := by decide

/-- With another bracket for inputs of one bit, R55's loop ends elsewhere: from (320, 330) the first midpoint 325 has the
square 1. -/
theorem test_fsqrt_takes_the_given_bracket : (stateOf (exec (.fsqrt 3 1)
    { loaded 1 0 with brackets := Config.sqrtBrackets.set 0 ⟨320, 330, by decide⟩ })).reg 3 = 325 := by decide

/-! ### One step of each command (95_test_vectors.md 2.4 to 2.9) -/

theorem test_seed_stream : ((stateOf (exec (.seed 0 1 0) (loaded 42 0))).stream 0) =
    ⟨0xB35E0C93, 0x92D5EFCF, 0x5C36C02D, 0x0FEAC2FC⟩ := by decide

theorem test_seed_sentinel : (stateOf (exec (.seed 1 2 1) (loaded 7 0))).reg 1 = 0 ∧
    (stateOf (exec (.seed 1 2 1) (loaded 7 0))).isSeeded 1 = false := by decide

theorem test_draw_value : (stateOf (exec (.draw 2 0) (seeded 1 State.reset))).reg 2 = 0xA25132F4 := by decide

theorem test_draw_unseeded : (stateOf (exec (.draw 3 1) (seeded 1 State.reset))).status = 0x000080C200000121 := by decide

theorem test_range_rejects_once :
    (stateOf (exec (.range 3 1 0) (seeded 1 (loaded 0x80000001 0)))).reg 3 = 519702369 ∧
    (stateOf (exec (.range 3 1 0) (seeded 1 (loaded 0x80000001 0)))).stream 0 =
      ⟨0xDF67D0CC, 0xC2CA1557, 0xE1E36989, 0x1EFA0761⟩ := by decide +kernel

theorem test_range_zero : (stateOf (exec (.range 4 6 0) (seeded 1 State.reset))).status = 0x00000D0300000131 := by decide

theorem test_irange_negative : (stateOf (exec (.irange 1 1 2 0) (seeded 1 (loaded (-5) (-1))))).reg 1 =
    0xFFFFFFFFFFFFFFFE := by decide +kernel

theorem test_irange_inverted : (stateOf (exec (.irange 5 1 2 1) (loaded 999 0))).reg 5 = 999 ∧
    (stateOf (exec (.irange 5 1 2 1) (loaded 999 0))).fault = false := by decide

theorem test_fmul_truncates : (stateOf (exec (.fmul 3 1 2) (loaded (-98304) 32769))).reg 3 = -49153 := by decide

theorem test_fmul_overflow : (stateOf (exec (.fmul 3 1 2) (loaded 0x8000000000000000 (-65536)))).cause = 5 := by decide

theorem test_fdiv_truncates : (stateOf (exec (.fdiv 3 1 2) (loaded (-65536) 196608))).reg 3 = -21845 := by decide

theorem test_fdiv_zero : (stateOf (exec (.fdiv 5 2 3) State.reset)).status = 0x0000355100000041 := by decide

theorem test_fround_half : (stateOf (exec (.fround 3 1) (loaded (-0x8000) 0))).reg 3 = -1 ∧
    (stateOf (exec (.fround 3 1) (loaded 0x7FFF 0))).reg 3 = 0 := by decide

theorem test_fround_least : (stateOf (exec (.fround 3 1) (loaded 0x8000000000000000 0))).reg 3 = -140737488355328 := by
  decide

theorem test_fsqrt_rom_and_sign : (stateOf (exec (.fsqrt 3 1) (loaded (-131072) 0))).reg 3 = -92682 ∧
    (stateOf (exec (.fsqrt 3 1) (loaded 8323072 0))).reg 3 = 738553 := by decide

theorem test_fsqrt_bisects : (stateOf (exec (.fsqrt 3 1) (loaded 8388608 0))).reg 3 = 741455 ∧
    (stateOf (exec (.fsqrt 3 1) (loaded 0x8000000000000000 0))).reg 3 = -777472127993 := by decide +kernel

theorem test_fpow_negative_exponent : (stateOf (exec (.fpow 4 1 2) (loaded 196608 (-2)))).reg 4 = 7282 := by decide

/-- An exponent that only the early stop can reach: (-1.0) to an odd power is -1.0 (R58: "alternates sign"). -/
theorem test_fpow_alternates : fixPow (-65536) 9223372036854775807 = some (-65536) ∧
    fixPow (-65536) (-9223372036854775808) = some 65536 := by decide +kernel

theorem test_fpow_overflow : (stateOf (exec (.fpow 4 1 2) (loaded 131072 47))).status = 0x0000231400000051 := by
  decide +kernel

/-! ### The port -/

theorem test_illegal_word : (stateOf (step (State.reset.withPort [.issue 0]))).status = 0x11 := by decide

theorem test_ignored_while_faulted : (stateOf (step (faulty.withPort [.issue 0x00008501]))).status =
    0x000080C200000021 := by decide

theorem test_placed_word_runs : (stateOf (step ((loaded 65536 0).withFetchWord 32 0x000002D3))).reg 3 = 65536 := by
  decide

theorem test_status_both_seeded :
    ((State.reset.markSeeded 0).markSeeded 1).status = 0x300 := by decide

/-! ### Witnesses: for every statement with hypotheses, a state and operands that meet them -/

theorem witness_decoded_word : decode 0x00003504 = .ok (.irange 4 2 3 0) := by decide

theorem witness_illegal_issue : decode 0x00008010 = .error .unusedField ∧
    (State.reset.withPort [.issue 0x00008010]).port = [.issue 0x00008010] ∧
    (State.reset.withPort [.issue 0x00008010]).fault = false := by decide

theorem witness_step_runs : (State.reset.withPort [.issue 0x00003504, .reset]).port = .issue 0x00003504 :: [.reset] ∧
    (State.reset.withPort [.issue 0x00003504, .reset]).fault = false ∧
    decode 0x00003504 = .ok (.irange 4 2 3 0) := by decide

theorem witness_idle : State.reset.port = [] := rfl

theorem witness_faulted_issue : (faulty.withPort [.issue 1]).fault = true ∧
    (faulty.withPort [.issue 1]).port = [.issue 1] := by decide

theorem witness_faulted_access : (faulty.withPort [.writeReg 0 7]).fault = true ∧
    (faulty.withPort [.writeReg 0 7]).port = [.writeReg 0 7] ∧
    (faulty.withPort [.readReg 7]).port = [.readReg 7] ∧ (faulty.withPort [.readStatus]).port = [.readStatus] ∧
    (faulty.withPort [.readStream 0 .a]).port = [.readStream 0 .a] := by decide

theorem witness_host_accesses : (faulty.withPort [.writeReg 7 5]).port = [.writeReg 7 5] ∧
    (faulty.withPort [.readReg 0]).port = [.readReg 0] ∧ (faulty.withPort [.readStatus]).port = [.readStatus] ∧
    (faulty.withPort [.readStream 1 .d]).port = [.readStream 1 .d] ∧ (faulty.withPort [.reset]).port = [.reset] := by
  decide

theorem witness_unseeded_read : Inv (State.reset.withPort [.readStream 1 .d]) ∧
    (State.reset.withPort [.readStream 1 .d]).isSeeded 1 = false ∧
    (State.reset.withPort [.readStream 1 .d]).port = [.readStream 1 .d] :=
  ⟨⟨by decide, (fun h => nomatch (h : false = true)), by decide, by decide⟩, by decide, rfl⟩

theorem witness_precise_fault : (State.reset.withPort [.issue 0x000080C2]).fault = false ∧
    step (State.reset.withPort [.issue 0x000080C2]) = .next faulty ∧ faulty.fault = true :=
  ⟨rfl, rfl, rfl⟩

theorem witness_only_reset_clears : faulty.fault = true ∧ step faulty = .next faulty ∧
    step (faulty.withPort [.reset]) = .next State.reset := ⟨rfl, rfl, rfl⟩

theorem witness_access_leaves_status : HostOp.isAccess (.writeReg 0 0) = true ∧
    goesOn (step (faulty.withPort [.writeReg 0 0])) = true := by decide

/-- A state with the invariant in which one stream is seeded, from which a step completes. -/
theorem witness_invariant : Inv (seeded 1 State.reset) ∧ step (seeded 1 State.reset) = .next (seeded 1 State.reset) :=
  ⟨⟨by decide, (fun h => nomatch (h : false = true)), by decide, by decide⟩, rfl⟩

theorem witness_completed_command : exec (.fround 1 0) State.reset = .next (State.reset.setInt 1 0) ∧
    (2 : RegIdx) ≠ Instr.dest (.fround 1 0) ∧ Instr.stream? (.fround 1 0) ≠ some 0 := ⟨rfl, by decide, by decide⟩

theorem witness_agree_except_stream : Instr.stream? (.draw 0 0) ≠ some 1 ∧
    AgreeExceptStream 1 State.reset (State.reset.markSeeded 1) :=
  ⟨by decide, ⟨rfl, fun _ _ => rfl, by decide, rfl, rfl, rfl, rfl, rfl, rfl, rfl⟩⟩

theorem witness_newly_seeded : goesOn (exec (.seed 0 1 0) (loaded 1 0)) = true ∧ (loaded 1 0).isSeeded 0 = false ∧
    (stateOf (exec (.seed 0 1 0) (loaded 1 0))).isSeeded 0 = true := by decide

theorem witness_seed_cases : (loaded 1 0).reg 1 ≠ 0 ∧ (loaded 1 0).reg 2 = 0 := by decide

theorem witness_draw_cases : (seeded 1 State.reset).isSeeded 0 = true ∧ (seeded 1 State.reset).isSeeded 1 = false := by
  decide

/-- RANGE_ARG at both ends of the interval's domain: 0 and 2^32. -/
theorem witness_range_arg : ((loaded 0 0x100000000).reg 1).toInt ≤ 0 ∧ 0xFFFFFFFF < ((loaded 0 0x100000000).reg 2).toInt := by
  decide

/-- A legal interval at both ends: 1 and 2^32 - 1, on a seeded and on an unseeded stream. -/
theorem witness_range_legal : ((loaded 1 0xFFFFFFFF).reg 1).toInt = 1 ∧ ((loaded 1 0xFFFFFFFF).reg 2).toInt = 0xFFFFFFFF ∧
    (seeded 1 (loaded 1 0xFFFFFFFF)).isSeeded 0 = true ∧ (loaded 1 0xFFFFFFFF).isSeeded 0 = false := by decide

/-- With seed 1 and `n = 0x80000001` the second attempt is the first accepted (95_test_vectors.md 2.4). -/
theorem witness_first_accepted : 1 ≤ ((seeded 1 (loaded 0x80000001 0)).reg 1).toInt ∧
    ((seeded 1 (loaded 0x80000001 0)).reg 1).toInt ≤ 0xFFFFFFFF ∧ (seeded 1 (loaded 0x80000001 0)).isSeeded 0 = true ∧
    FirstAccepted ((seeded 1 (loaded 0x80000001 0)).reg 1).toInt.toNat ((seeded 1 (loaded 0x80000001 0)).stream 0) 1 := by
  unfold FirstAccepted Accepts
  decide +kernel

theorem witness_range_result :
    (seeded 1 (loaded 2 0)).fault = false ∧ goesOn (exec (.range 3 1 0) (seeded 1 (loaded 2 0))) = true ∧
    (stateOf (exec (.range 3 1 0) (seeded 1 (loaded 2 0)))).fault = false := by decide +kernel

theorem witness_accepts_domain : 1 ≤ 0xFFFFFFFF ∧ 0xFFFFFFFF ≤ 2 ^ 32 - 1 ∧
    (genStep ⟨0, 0, 0, 0x7FFFFFFF⟩).2.toNat < 2 ^ 31 := by decide

/-- An output that is accepted (0 from the all-zero state, for every `n`) and one that is rejected (the first of seed 1,
for `n = 0x80000001`), as `RangedCore` sees them. -/
theorem witness_accepted_and_rejected : (genStep ⟨0, 0, 0, 0⟩).2.toNat < 1 * (0xFFFFFFFF / 1) ∧
    ¬ (genStep (seedState 1)).2.toNat < 0x80000001 * (0xFFFFFFFF / 0x80000001) := by decide +kernel

/-- IRANGE's clauses where they meet: `upper = lower`, an interval of 2, of 2^32 - 1 and of 2^32. -/
theorem witness_irange_clauses :
    ((loaded 7 7).reg 2).toInt ≤ ((loaded 7 7).reg 1).toInt ∧
    ((loaded 0 1).reg 1).toInt < ((loaded 0 1).reg 2).toInt ∧ (loaded 0 1).isSeeded 0 = false ∧
    ((loaded 0 0xFFFFFFFE).reg 2).toInt - ((loaded 0 0xFFFFFFFE).reg 1).toInt + 1 = 0xFFFFFFFF ∧
    ((loaded 0 0xFFFFFFFF).reg 2).toInt - ((loaded 0 0xFFFFFFFF).reg 1).toInt + 1 = 0x100000000 := by decide

theorem witness_irange_draws :
    ((seeded 1 (loaded 0 0xFFFFFFFE)).reg 1).toInt < ((seeded 1 (loaded 0 0xFFFFFFFE)).reg 2).toInt ∧
    (seeded 1 (loaded 0 0xFFFFFFFE)).isSeeded 0 = true ∧
    FirstAccepted (((seeded 1 (loaded 0 0xFFFFFFFE)).reg 2).toInt - ((seeded 1 (loaded 0 0xFFFFFFFE)).reg 1).toInt + 1).toNat
      ((seeded 1 (loaded 0 0xFFFFFFFE)).stream 0) 0 := by
  unfold FirstAccepted Accepts
  decide +kernel

theorem witness_irange_result :
    (seeded 1 (loaded 0 999)).fault = false ∧ goesOn (exec (.irange 3 1 2 0) (seeded 1 (loaded 0 999))) = true ∧
    (stateOf (exec (.irange 3 1 2 0) (seeded 1 (loaded 0 999)))).fault = false := by decide +kernel

/-- FMUL at the edge: the greatest value times 1.0 fits, the least times -1.0 is one too many. -/
theorem witness_fmul_edges :
    Fits ((((loaded 0x7FFFFFFFFFFFFFFF 65536).reg 1).toInt * ((loaded 0x7FFFFFFFFFFFFFFF 65536).reg 2).toInt).tdiv 65536) ∧
    ¬ Fits ((((loaded 0x8000000000000000 (-65536)).reg 1).toInt *
      ((loaded 0x8000000000000000 (-65536)).reg 2).toInt).tdiv 65536) := by
  unfold Fits
  decide

theorem witness_fdiv_edges : ((loaded 1 0).reg 2).toInt = 0 ∧
    ((loaded 0x8000000000000000 65536).reg 2).toInt ≠ 0 ∧
    Fits ((((loaded 0x8000000000000000 65536).reg 1).toInt * 65536).tdiv ((loaded 0x8000000000000000 65536).reg 2).toInt) ∧
    ¬ Fits ((((loaded 0x1000000000000 1).reg 1).toInt * 65536).tdiv ((loaded 0x1000000000000 1).reg 2).toInt) := by
  unfold Fits
  decide

theorem witness_fsqrt_table : ((loaded 8323072 (-65536)).reg 1).toInt = (127 : Fin 128).val * 65536 ∧
    ((loaded 8323072 (-65536)).reg 2).toInt = -((1 : Fin 128).val * 65536 : Int) := by decide

theorem witness_sqrt_off_table : isTableInput 16384 = false ∧ isTableInput 65537 = false ∧ 2 ^ 14 ≤ 16384 ∧
    2 ^ (17 - 1) ≤ 65537 ∧ 65537 < 2 ^ 17 ∧ isTableInput 1 = false ∧ 2 ^ (1 - 1) ≤ 1 ∧ 1 < 2 ^ 1 := by decide

theorem witness_positive_input : (0 : Int) < 1 ∧ 0 < 1 := by decide

theorem witness_sqrt_least : isTableInput ((loaded 0x8000000000000000 0).reg 1).toInt.natAbs = false ∧
    EnclosesRoot (bracketRead (loaded 0x8000000000000000 0).brackets (msbpos ((loaded 0x8000000000000000 0).reg 1).toInt.natAbs))
      ((loaded 0x8000000000000000 0).reg 1).toInt.natAbs := by
  unfold EnclosesRoot
  decide +kernel

/-- The default bracket around the roots of 0.25 and of `1 + 2^-16`: strictly, and at least 2 wide. -/
theorem witness_sqrt_bracket :
    (∀ v ∈ [16384, 65537], (Config.sqrtBracket (msbpos v)).lower ^ 2 < v * 2 ^ 16 ∧
      v * 2 ^ 16 < (Config.sqrtBracket (msbpos v)).upper ^ 2 ∧
      (Config.sqrtBracket (msbpos v)).lower + 1 < (Config.sqrtBracket (msbpos v)).upper) := by decide +kernel

theorem witness_bracket_positions : (1 ≤ 1 ∧ 1 ≤ 64) ∧ (1 ≤ 64 ∧ 64 ≤ 64) := by decide

/-- FPOW's clauses: base 0; 3.0 to the power 2 with every pair fitting; 2.0 to the power 47 with the last not. -/
theorem witness_fpow_clauses : ((loaded 0 5).reg 1).toInt = 0 ∧ ((loaded 196608 2).reg 1).toInt ≠ 0 ∧
    (∀ j < 3, Fits (powAcc 196608 j).1) ∧ Fits (powOut 196608 2) ∧ ((loaded 196608 2).reg 2).toInt.natAbs = 2 ∧
    ((loaded 131072 47).reg 1).toInt ≠ 0 ∧ ¬ Fits (powAcc 131072 47).1 := by
  unfold Fits
  decide +kernel

theorem witness_fpow_zero_exponent : (loaded 131072 0).reg 1 ≠ 0 ∧ (loaded 131072 0).reg 2 = 0 := by decide

theorem witness_fpow_repeat : (65536 : Int) ≠ 0 ∧ powAcc 65536 0 = powAcc 65536 3 ∧ (∀ m < 4, Fits (powAcc 65536 m).1) := by
  unfold Fits
  decide

/-- A step of `Pow(3.0, -2)` with an error term, from 41_fixpt.md R58's example, and the loop it belongs to. -/
theorem witness_pow_step : powNext 21845 (21845, 0) = some (7281, 36409) ∧
    powLoop 21845 2 (65536, 0) = some (7281, 36409) := by decide

theorem witness_one : (loaded 3 65536).reg 2 = 65536 := by decide

end Sys2Proof.Tests
end

section
/-! PROOFS. The OPEN parameter `SQRT_BRACKET` is constant along every run (R4, log 6): commands, then issues, then steps. -/

namespace Sys2Proof.Machine

/-- No command writes the brackets, whether it completes or faults. -/
theorem exec_brackets {i : Instr} {s t : State} (h : exec i s = .next t) : t.brackets = s.brackets := by
  rcases exec_next_cases h with hq | ⟨c, -, rfl⟩
  · exact hq.brackets
  · exact State.raise_brackets s c (encode i)

/-- No issue writes the brackets, be it ignored, executed or illegal. -/
theorem hostIssue_brackets {w : Cmd} {s t : State} (h : hostIssue w s = .next t) : t.brackets = s.brackets := by
  rcases hostIssue_cases w s with ⟨-, he⟩ | ⟨-, i, -, he⟩ | ⟨-, e, -, he⟩ <;> rw [he] at h
  · cases h; exact State.withReply_brackets s none
  · exact (exec_brackets h).trans (State.withReply_brackets s none)
  · cases h; simp

/-- Settles O59: an idle step changes nothing, the accesses and the reset keep the field, and so does an issue. -/
theorem bracketsAreNeverWritten : Obligations.BracketsAreNeverWritten := by
  intro s t h
  rcases step_next_cases h with ⟨-, rfl⟩ | ⟨op, rest, -, hop⟩
  · rfl
  · rcases hop with ⟨i, v, -, rfl⟩ | ⟨i, -, rfl⟩ | ⟨-, rfl⟩ | ⟨k, w, -, rfl⟩ | ⟨w, -, hi⟩ | ⟨-, rfl⟩
    · simp [hostWriteReg]
    · simp [hostReadReg]
    · simp [hostReadStatus]
    · simp [hostReadStream]
    · exact (hostIssue_brackets hi).trans (State.withPort_brackets s rest)
    · simp [hostReset]

end Sys2Proof.Machine
end

section
/-! PROOFS. The facts the state's statements rest on: a command's word decodes to it, the generator never reaches the
all-zero state from another one (R49), and STATUS as a number (R14). -/

namespace Sys2Proof

/-- The word of a command decodes to that command, so the FCMD a command's fault records is a word of it (R34; log 3). -/
theorem decode_encode (i : Instr) : decode (encode i) = .ok i := by
  rw [decode_ok, fieldsOf_encode]
  cases i <;> exact ⟨rfl, by simp [decodeFields, encodeFields, whenUnusedZero]⟩

/-- Joining two bit patterns puts the first one above the second. -/
theorem toNat_append_eq_add {n m : Nat} (x : BitVec n) (y : BitVec m) :
    (x ++ y).toNat = 2 ^ m * x.toNat + y.toNat := by
  rw [BitVec.toNat_append, ← Nat.shiftLeft_add_eq_or_of_lt y.isLt, Nat.shiftLeft_eq, Nat.mul_comm]

end Sys2Proof

namespace Sys2Proof.Machine

/-- Only the all-zero stream steps to the all-zero stream: R41's equations give `d = 0`, then `c`, `b` and `a`. -/
theorem eq_zero_of_genStep_eq_zero {st : GenStream} (h : (genStep st).1 = GenStream.zero) : st = GenStream.zero := by
  obtain ⟨a, b, c, d⟩ := st
  simp only [genStep, GenStream.zero, GenStream.mk.injEq] at h ⊢
  obtain ⟨ha, hb, hc, hd⟩ := h
  rw [ha, add_zero] at hd
  have hd0 : d = 0 := by simpa [hd] using hc
  have hc0 : c = 0 := by simpa [hd0] using hb
  have hb0 : b = 0 := by simpa [hc0, rotl32] using ha
  have ha0 : a = 0 := by simpa [hb0, rotl32] using hd
  exact ⟨ha0, hb0, hc0, hd0⟩

/-- A stream that is not all zero never becomes so, however many steps follow (R49). -/
theorem nthState_ne_zero {st : GenStream} (h : st ≠ GenStream.zero) (j : Nat) : nthState st j ≠ GenStream.zero := by
  induction j with
  | zero => exact h
  | succ j ih => rw [nthState_succ_end]; exact mt eq_zero_of_genStep_eq_zero ih

/-- Seeding starts from `SEED_CONST` in word `a`, so it never leaves a stream all zero (R42, R49). -/
theorem seedState_ne_zero (seed : XWord) : seedState seed ≠ GenStream.zero := by
  have hstart : seedStart seed ≠ GenStream.zero := fun h =>
    (by decide : Config.seedConst ≠ 0) (congrArg GenStream.a h)
  rw [seedState, discard_eq]
  exact nthState_ne_zero hstart _

theorem toNat_bitOf (b : Bool) : (bitOf b).toNat = b.toNat := BitVec.toNat_ofBool b

/-- Settles O13: STATUS is a join of seven patterns, and each field's number is shifted by the widths below it. -/
theorem statusWordHasItsFields : Obligations.StatusWordHasItsFields := by
  intro s
  simp only [State.status, toNat_append_eq_add, toNat_bitOf, BitVec.ofNat_eq_ofNat, BitVec.toNat_ofNat]
  omega

end Sys2Proof.Machine
end

section
/-! PROOFS. What the operations of the port do (R16, R17): the accesses, an issue, a reset, and what stays at the port. -/

namespace Sys2Proof.Machine

/-- The three kinds of operation: an access, an issue, a reset. -/
theorem HostOp.isAccess_or_issue_or_reset (op : HostOp) :
    op.isAccess = true ∨ (∃ w, op = .issue w) ∨ op = .reset := by
  cases op with
  | writeReg | readReg | readStatus | readStream => exact .inl rfl
  | issue w => exact .inr (.inl ⟨w, rfl⟩)
  | reset => exact .inr (.inr rfl)

/-- An access completes and touches nothing but the registers and the reply (R16). -/
theorem perform_access {op : HostOp} (h : op.isAccess = true) (s : State) :
    ∃ x r, perform op s = .next { s with x := x, reply := r } := by
  cases op with
  | writeReg | readReg | readStatus | readStream => exact ⟨_, _, rfl⟩
  | issue | reset => cases h

theorem perform_issue (w : Cmd) (s : State) : perform (.issue w) s = hostIssue w s := rfl

/-- Writing one register leaves everything else as it is. -/
theorem writesOnlyReg_setReg (s : State) (i : RegIdx) (v : XWord) : WritesOnlyReg i s (s.setReg i v) :=
  ⟨fun _ h => State.reg_setReg_ne s v h, rfl, rfl, rfl, rfl, rfl, rfl, rfl, rfl, rfl⟩

/-- With no fault latched the issue of a legal word runs its command, and returns nothing to the host (R17). -/
theorem hostIssue_decoded {s : State} {w : Cmd} {i : Instr} (hf : s.fault = false) (hd : decode w = .ok i) :
    hostIssue w s = exec i (s.withReply none) := by
  simp [hostIssue, hf, hd]

/-- A step whose operation is the issue of a legal word, with no fault latched, is that word's command (R17). -/
theorem step_issue_decoded {s : State} {w : Cmd} {i : Instr} {rest : List HostOp}
    (hp : s.port = .issue w :: rest) (hf : s.fault = false) (hd : decode w = .ok i) :
    step s = exec i ((s.withPort rest).withReply none) :=
  (step_perform hp).trans (hostIssue_decoded hf hd)

/-- No command touches the port. -/
theorem exec_port {i : Instr} {s t : State} (h : exec i s = .next t) : t.port = s.port := by
  rcases exec_next_cases h with hq | ⟨c, -, rfl⟩
  · exact hq.port
  · exact State.raise_port s c (encode i)

/-- Performing an operation leaves the others at the port as they are, a reset included (log 1, log 16). -/
theorem perform_port {op : HostOp} {s t : State} (h : perform op s = .next t) : t.port = s.port := by
  rcases op.isAccess_or_issue_or_reset with ha | ⟨w, rfl⟩ | rfl
  · obtain ⟨x, r, he⟩ := perform_access ha s
    cases he.symm.trans h; rfl
  · rw [perform_issue] at h
    rcases hostIssue_cases w s with ⟨-, he⟩ | ⟨-, i, -, he⟩ | ⟨-, e, -, he⟩ <;> rw [he] at h
    · cases h; exact State.withReply_port s none
    · exact (exec_port h).trans (State.withReply_port s none)
    · cases h; simp
  · cases h; exact State.clear_port s

/-- Settles O18: a step is `perform` of the port's first operation, which leaves the rest of the port alone. -/
theorem portIsServedInOrder : Obligations.PortIsServedInOrder := by
  refine ⟨fun s op rest hp => step_perform hp, fun s t h => ?_⟩
  cases hp : s.port with
  | nil => cases (step_idle hp).symm.trans h; exact hp
  | cons op rest => exact perform_port ((step_perform hp).symm.trans h)

/-- Settles O19: an access changes only registers and the reply, and STATUS is computed from neither. -/
theorem hostAccessesLeaveStreamsAndStatus : Obligations.HostAccessesLeaveStreamsAndStatus := by
  intro s t op rest ha hp h
  obtain ⟨x, r, he⟩ := perform_access ha (s.withPort rest)
  cases ((step_perform hp).trans he).symm.trans h
  exact ⟨rfl, rfl, rfl⟩

/-- Settles O7: the step equation, with the two updates of the host's side written as one. -/
theorem stepRunsDecodedCommand : Obligations.StepRunsDecodedCommand :=
  fun _ _ _ _ hp hf hd => step_issue_decoded hp hf hd

/-- Settles O21: the placed word is the first operation at the port, and no fault is latched. -/
theorem placedWordRunsNext : Obligations.PlacedWordRunsNext := by
  intro s w i hd
  have hw : BitVec.ofNat 32 (w.toNat % 2 ^ 32) = w := by
    rw [Nat.mod_eq_of_lt w.isLt, BitVec.ofNat_toNat, BitVec.setWidth_eq]
  have hp : (s.withFetchWord 32 w.toNat).port = .issue w :: s.port := by
    simp only [State.withFetchWord, State.placeCommand, hw]
  exact step_issue_decoded hp rfl hd

/-- Settles O10: each clause is `perform` of its operation; a write is the one that has a frame to show. -/
theorem hostAccessesDoWhatTheTableSays : Obligations.HostAccessesDoWhatTheTableSays := by
  intro s rest
  refine ⟨fun i v hp => ?_, fun i hp => step_perform hp, fun hp => step_perform hp, fun k w hp => step_perform hp,
    fun hp => step_perform hp⟩
  exact ⟨_, step_perform hp, State.reg_setReg_self _ i v,
    writesOnlyReg_setReg ((s.withPort rest).withReply none) i v⟩

/-- Settles O11: zero-extension keeps the word's number, and the invariant gives the words of an unseeded stream. -/
theorem streamReadReturnsNamedWord : Obligations.StreamReadReturnsNamedWord := by
  intro s k w rest hp
  refine ⟨_, ((s.stream k).word w).setWidth 64, step_perform hp, rfl, ?_, fun hi hs => ?_,
    rfl, rfl, rfl, rfl, rfl, rfl, rfl⟩
  · rw [BitVec.toNat_setWidth_of_le (by decide)]
    cases w <;> rfl
  · rw [hi.unseeded k hs]
    cases w <;> rfl

end Sys2Proof.Machine
end

section
/-! PROOFS. What every command keeps (R10, R12), when a step completes (R17, R49), and that every step keeps `Inv`. -/

namespace Sys2Proof.Machine

/-- Settles O24: a fault writes no register, and a completed command is quiet. -/
theorem commandsWriteOnlyTheirDestination : Obligations.CommandsWriteOnlyTheirDestination := by
  intro i s t r h hr
  rcases exec_next_cases h with hq | ⟨c, -, rfl⟩
  · exact hq.regs r hr
  · exact State.raise_reg s c (encode i) r

/-- Settles O27: of the three things that can become of a stream, only seeding it sets a SEEDED bit that was clear. -/
theorem onlyNonzeroSeedSetsSeeded : Obligations.OnlyNonzeroSeedSetsSeeded := by
  intro i s t k h
  rcases exec_next_cases h with hq | ⟨c, -, rfl⟩
  · rcases hq.streams k with ⟨-, hse⟩ | ⟨rd, rs1, hi, hne, -, hse⟩ | ⟨-, hs, hse, -⟩
    · rw [hse]; exact ⟨id, fun h0 h1 => absurd (h0.symm.trans h1) (by decide)⟩
    · exact ⟨fun _ => hse, fun _ _ => ⟨rd, rs1, hi, hne⟩⟩
    · exact ⟨fun _ => hse, fun h0 _ => absurd (h0.symm.trans hs) (by decide)⟩
  · rw [State.raise_isSeeded]; exact ⟨id, fun h0 h1 => absurd (h0.symm.trans h1) (by decide)⟩

/-- An outcome goes on in a next state. -/
def GoesOn (o : Host.Outcome State Fault Refusal) : Prop := ∃ t, o = .next t

theorem finish_goesOn (s : State) (rd : RegIdx) (w : Cmd) (r : Option Int) : GoesOn (finish s rd w r) := by
  rcases finish_cases s rd w r with ⟨v, -, -, he⟩ | he <;> exact ⟨_, he⟩

theorem rangedCommand_goesOn_or_hangs (rd : RegIdx) (k : StreamIdx) (base n : Int) (w : Cmd) (s : State) :
    GoesOn (rangedCommand rd k base n w s) ∨ rangedCommand rd k base n w s = .fault .hang := by
  rcases rangedCommand_cases rd k base n w s with
    ⟨-, he⟩ | ⟨-, -, -, he⟩ | ⟨-, -, -, j, -, he⟩ | ⟨-, -, -, -, he⟩
  · exact .inl ⟨_, he⟩
  · exact .inl ⟨_, he⟩
  · exact .inl ⟨_, he⟩
  · exact .inr he

/-- Every command goes on, but for a RANGE or IRANGE whose rejection loop never ends (R49). -/
theorem exec_goesOn_or_hangs (i : Instr) (s : State) :
    GoesOn (exec i s) ∨ (exec i s = .fault .hang ∧
      ((∃ rd rs1 k, i = .range rd rs1 k) ∨ (∃ rd rs1 rs2 k, i = .irange rd rs1 rs2 k))) := by
  cases i with
  | seed rd rs1 k => left; simp only [exec, execSeed]; split <;> exact ⟨_, rfl⟩
  | draw rd k => left; simp only [exec, execDraw]; split <;> exact ⟨_, rfl⟩
  | range rd rs1 k =>
    exact (rangedCommand_goesOn_or_hangs ..).imp id fun h => ⟨h, .inl ⟨rd, rs1, k, rfl⟩⟩
  | irange rd rs1 rs2 k =>
    simp only [exec, execIrange]
    split
    · exact .inl ⟨_, rfl⟩
    · exact (rangedCommand_goesOn_or_hangs ..).imp id fun h => ⟨h, .inr ⟨rd, rs1, rs2, k, rfl⟩⟩
  | fmul rd a b => left; simp only [exec, execFmul]; exact finish_goesOn ..
  | fdiv rd a b =>
    left; simp only [exec, execFdiv]
    split
    · exact ⟨_, rfl⟩
    · exact finish_goesOn ..
  | fround rd a => exact .inl ⟨_, rfl⟩
  | fsqrt rd a => exact .inl ⟨_, rfl⟩
  | fpow rd a b => left; simp only [exec, execFpow]; exact finish_goesOn ..

/-- Settles O20: all that is not the issue of a legal word completes, and that is its command's affair. -/
theorem onlyRangedDrawsCanFailToComplete : Obligations.OnlyRangedDrawsCanFailToComplete := by
  intro s
  unfold Completes
  cases hp : s.port with
  | nil => exact .inl ⟨s, step_idle hp⟩
  | cons op rest =>
    rw [step_perform hp]
    rcases op.isAccess_or_issue_or_reset with ha | ⟨w, rfl⟩ | rfl
    · obtain ⟨x, r, he⟩ := perform_access ha (s.withPort rest)
      exact .inl ⟨_, he⟩
    · rw [perform_issue]
      rcases hostIssue_cases w (s.withPort rest) with ⟨-, he⟩ | ⟨hf, i, hd, he⟩ | ⟨-, e, -, he⟩ <;> rw [he]
      · exact .inl ⟨_, rfl⟩
      · rcases exec_goesOn_or_hangs i ((s.withPort rest).withReply none) with hn | ⟨hh, hi⟩
        · exact .inl hn
        · refine .inr ⟨hh, hf, w, rest, rfl, ?_⟩
          rw [hd]; simpa using hi
      · exact .inl ⟨_, rfl⟩
    · exact .inl ⟨_, rfl⟩

/-- `Inv` does not speak of the registers, the port or the reply. -/
theorem Inv.with_host_side {s : State} (h : Inv s) (x : Vector XWord 8) (ops : List HostOp) (r : Option XWord) :
    Inv { s with x := x, port := ops, reply := r } :=
  ⟨h.clear, h.latched, h.seeded, h.unseeded⟩

/-- Taking a fault keeps `Inv` when its word can raise its cause. -/
theorem Inv.after_raise {s : State} (h : Inv s) {c : Cause} {w : Cmd} (hc : CausedBy c w) : Inv (s.raise c w) where
  clear hf := nomatch (hf : true = false)
  latched _ := ⟨c, rfl, hc⟩
  seeded := h.seeded
  unseeded := h.unseeded

/-- The state after a reset has `Inv`, whatever it was before. -/
theorem inv_clear (s : State) : Inv s.clear where
  clear _ := ⟨rfl, rfl⟩
  latched hf := nomatch (hf : false = true)
  seeded k hs := absurd (s.isSeeded_clear k) (by simp [hs])
  unseeded k _ := s.stream_clear k

/-- A command that completes keeps `Inv`: a stream it seeds or steps on is seeded and not all zero (R49). -/
theorem Inv.after_quiet {i : Instr} {s t : State} (h : Inv s) (hq : Quiet i s t) : Inv t where
  clear := by rw [hq.fault, hq.cause, hq.fcmd]; exact h.clear
  latched := by rw [hq.fault, hq.cause, hq.fcmd]; exact h.latched
  seeded k := by
    rcases hq.streams k with ⟨hst, hse⟩ | ⟨rd, rs1, -, -, hst, -⟩ | ⟨-, hs, -, j, hst⟩
    · rw [hst, hse]; exact h.seeded k
    · rw [hst]; exact fun _ => seedState_ne_zero _
    · rw [hst]; exact fun _ => nthState_ne_zero (h.seeded k hs) j
  unseeded k hk := by
    rcases hq.streams k with ⟨hst, hse⟩ | ⟨rd, rs1, -, -, -, hse⟩ | ⟨-, -, hse, -⟩
    · rw [hst]; exact h.unseeded k (hse.symm.trans hk)
    · exact absurd (hse.symm.trans hk) (by decide)
    · exact absurd (hse.symm.trans hk) (by decide)

/-- Every command keeps `Inv`: the FCMD of its fault decodes to it, so its cause is one that word can raise. -/
theorem Inv.after_exec {i : Instr} {s t : State} (h : Inv s) (he : exec i s = .next t) : Inv t := by
  rcases exec_next_cases he with hq | ⟨c, hc, rfl⟩
  · exact h.after_quiet hq
  · exact h.after_raise (by rw [CausedBy, decode_encode]; exact hc)

/-- Every issue keeps `Inv`, be it ignored, executed or illegal. -/
theorem Inv.after_hostIssue {w : Cmd} {s t : State} (h : Inv s) (hi : hostIssue w s = .next t) : Inv t := by
  have h0 : Inv (s.withReply none) := h.with_host_side s.x s.port none
  rcases hostIssue_cases w s with ⟨-, he⟩ | ⟨-, i, -, he⟩ | ⟨-, e, hd, he⟩ <;> rw [he] at hi
  · cases hi; exact h0
  · exact h0.after_exec hi
  · cases hi; exact h0.after_raise (by rw [CausedBy, hd])

/-- Every operation at the port keeps `Inv`. -/
theorem Inv.after_perform {op : HostOp} {s t : State} (h : Inv s) (hp : perform op s = .next t) : Inv t := by
  rcases op.isAccess_or_issue_or_reset with ha | ⟨w, rfl⟩ | rfl
  · obtain ⟨x, r, he⟩ := perform_access ha s
    cases he.symm.trans hp
    exact h.with_host_side x s.port r
  · exact h.after_hostIssue hp
  · cases hp; exact inv_clear s

/-- Settles O23: an idle step changes nothing, and every operation keeps `Inv`. -/
theorem stepKeepsInvariant : Obligations.StepKeepsInvariant := by
  intro s t h hst
  cases hp : s.port with
  | nil => cases (step_idle hp).symm.trans hst; exact h
  | cons op rest =>
    exact (h.with_host_side s.x rest s.reply : Inv (s.withPort rest)).after_perform ((step_perform hp).symm.trans hst)

end Sys2Proof.Machine
end

section
/-! PROOFS. The ROM is constant along every run (R19, R22): commands, then operations of the port, then steps. -/

namespace Sys2Proof.Machine

/-- No command writes the ROM, whether it completes or faults. -/
theorem exec_rom {i : Instr} {s t : State} (h : exec i s = .next t) : t.rom = s.rom := by
  rcases exec_next_cases h with hq | ⟨c, -, rfl⟩
  · exact hq.rom
  · exact State.raise_rom s c (encode i)

/-- No issue writes the ROM, be it ignored, executed or illegal. -/
theorem hostIssue_rom {w : Cmd} {s t : State} (h : hostIssue w s = .next t) : t.rom = s.rom := by
  rcases hostIssue_cases w s with ⟨-, he⟩ | ⟨-, i, -, he⟩ | ⟨-, e, -, he⟩ <;> rw [he] at h
  · cases h; exact State.withReply_rom s none
  · exact (exec_rom h).trans (State.withReply_rom s none)
  · cases h; simp

/-- No operation of the port writes the ROM: an access has no way to it, and a reset carries it over (R22, R70). -/
theorem perform_rom {op : HostOp} {s t : State} (h : perform op s = .next t) : t.rom = s.rom := by
  rcases op.isAccess_or_issue_or_reset with ha | ⟨w, rfl⟩ | rfl
  · obtain ⟨x, r, he⟩ := perform_access ha s
    cases he.symm.trans h; rfl
  · exact hostIssue_rom h
  · cases h; exact State.clear_rom s

/-- The ROM is the same table before and after every step. -/
theorem step_rom {s t : State} (h : step s = .next t) : t.rom = s.rom := by
  cases hp : s.port with
  | nil => cases (step_idle hp).symm.trans h; rfl
  | cons op rest => exact (perform_rom ((step_perform hp).symm.trans h)).trans (State.withPort_rom s rest)

/-- Settles O16: a step keeps the whole table, hence what `ROMRead` gives at each of its entries. -/
theorem romIsNeverWritten : Obligations.RomIsNeverWritten := by
  intro s t h k
  rw [step_rom h]

end Sys2Proof.Machine
end

section
/-! PROOFS. Decoding undoes encoding and encoding undoes decoding (R30 to R34), and the fields as numbers (R30). -/

namespace Sys2Proof

/-- Settles O1: a command's fields survive the join and the split, and its opcode selects its own arm of the decoder. -/
theorem decodeOfEncodeGivesInstr : Obligations.DecodeOfEncodeGivesInstr := decode_encode

theorem encodeFields_of_whenUnusedZero {b : Bool} {i j : Instr} {f : Cmd32} (h : whenUnusedZero b i = .ok j)
    (hi : b = true → encodeFields i = f) : encodeFields j = f := by
  obtain ⟨hb, rfl⟩ := whenUnusedZero_ok.1 h
  exact hi hb

/-- Fields that decode are those of the command they decode to: what the command does not hold, the decoder required to
be zero (R33). -/
theorem encodeFields_of_decodeFields {f : Cmd32} {i : Instr} (hresv : f.resv = 0) (h : decodeFields f = .ok i) :
    encodeFields i = f := by
  obtain ⟨opc, rd, rs1, rs2, s, resv⟩ := f
  obtain rfl : resv = 0 := hresv
  unfold decodeFields at h
  split at h
  case h_10 => cases h
  all_goals
    rename_i hopc
    obtain ⟨-, rfl⟩ : _ ∧ opc = BitVec.ofNat 6 _ := BitVec.toNat_eq_nat.1 hopc
  case h_4 => cases h; simp [encodeFields]
  all_goals
    refine encodeFields_of_whenUnusedZero h fun hz => ?_
    simp only [Bool.and_eq_true, beq_iff_eq] at hz
    simp [encodeFields, hz]

/-- Settles O2: the fields of the word are the command's, and joining them gives the word. -/
theorem encodeOfDecodedWordGivesWord : Obligations.EncodeOfDecodedWordGivesWord := by
  intro w i h
  obtain ⟨hresv, hfields⟩ := decode_ok.1 h
  rw [encode, encodeFields_of_decodeFields hresv hfields, wordOf_fieldsOf]

/-- Settles O4: a bit range of a word is its number shifted down and cut to the field's width. -/
theorem fieldsAreTheBitRanges : Obligations.FieldsAreTheBitRanges := by
  intro w
  have hresv : w.toNat / 2 ^ 16 < 2 ^ 16 := by have := w.isLt; omega
  simp only [fieldsOf, BitVec.extractLsb'_toNat, Nat.shiftRight_eq_div_pow]
  exact ⟨by norm_num, trivial, trivial, trivial, trivial, Nat.mod_eq_of_lt hresv, wordOf_fieldsOf w⟩

@[simp] theorem toNat_regField (r : RegIdx) : (regField r).toNat = r.val := by revert r; decide

@[simp] theorem toNat_streamField (k : StreamIdx) : (streamField k).toNat = k.val := by revert k; decide

/-- Settles O57: the word is the command's own, so its bit ranges are the fields `encode` put there. -/
theorem decodedOperandsAreTheirBits : Obligations.DecodedOperandsAreTheirBits := by
  intro w i h
  obtain ⟨hopc, hrd, hrs1, hrs2, hs, -, -⟩ := fieldsAreTheBitRanges w
  rw [← hopc, ← hrd, ← hrs1, ← hrs2, ← hs, ← encodeOfDecodedWordGivesWord w i h, fieldsOf_encode]
  cases i <;> simp [encodeFields]

/-- Settles O6: twelve words, decoded one by one. -/
theorem specWordsDecodeAsListed : Obligations.SpecWordsDecodeAsListed := by
  unfold Obligations.SpecWordsDecodeAsListed
  decide

end Sys2Proof
end

section
/-! PROOFS. R33's three conditions and R32's table of exact patterns say the same of a word: its fields are those of a
command in one row of the table of opcodes. -/

namespace Sys2Proof

/-- The fields `f` are a command's in the row `u` of R32's table: its opcode, no reserved bit, and zero in each field
the row does not use. -/
structure Cmd32.InRow (f : Cmd32) (u : OpcodeUse) : Prop where
  opc : f.opc = u.opc
  resv : f.resv = 0
  rs1 : u.rs1 = true ∨ f.rs1 = 0
  rs2 : u.rs2 = true ∨ f.rs2 = 0
  s : u.s = true ∨ f.s = 0

/-- No two rows of the table have the same opcode. -/
theorem opcodeUses_opc_inj : ∀ u ∈ opcodeUses, ∀ v ∈ opcodeUses, u.opc = v.opc → u = v := by decide

/-- R33's conditions ask for one row of the table: no other row has the opcode, so R33 (c) speaks of that row only. -/
theorem wellFormed_iff_inRow (f : Cmd32) : f.wellFormed = true ↔ ∃ u ∈ opcodeUses, f.InRow u := by
  simp only [Cmd32.wellFormed, Cmd32.opcodeDefined, Cmd32.reservedZero, Cmd32.unusedZero, Bool.and_eq_true,
    List.any_eq_true, List.all_eq_true, Bool.or_eq_true, beq_iff_eq, bne_iff_ne]
  constructor
  · rintro ⟨⟨⟨u, hu, hopc⟩, hresv⟩, hunused⟩
    obtain ⟨⟨hrs1, hrs2⟩, hs⟩ := (hunused u hu).resolve_left (not_not_intro hopc)
    exact ⟨u, hu, hopc.symm, hresv, hrs1, hrs2, hs⟩
  · rintro ⟨u, hu, hopc, hresv, hrs1, hrs2, hs⟩
    refine ⟨⟨⟨u, hu, hopc.symm⟩, hresv⟩, fun v hv => or_iff_not_imp_left.2 fun hv' => ?_⟩
    obtain rfl := opcodeUses_opc_inj v hv u hu ((not_not.1 hv').trans hopc)
    exact ⟨⟨hrs1, hrs2⟩, hs⟩

/-- The row `u` of R32's table as its (match, mask) pair: the mask has every bit of `opc`, of `resv` and of the fields
the row does not use. -/
def OpcodeUse.pattern (u : OpcodeUse) : Cmd × Cmd :=
  (wordOf ⟨u.opc, 0, 0, 0, 0, 0⟩,
   wordOf ⟨BitVec.allOnes 6, 0, if u.rs1 then 0 else BitVec.allOnes 3, if u.rs2 then 0 else BitVec.allOnes 3,
     if u.s then 0 else BitVec.allOnes 1, BitVec.allOnes 16⟩)

theorem opcodePatterns_eq_map : opcodePatterns = opcodeUses.map OpcodeUse.pattern := by decide

theorem fieldsOf_inj {v w : Cmd} : fieldsOf v = fieldsOf w ↔ v = w :=
  Function.LeftInverse.injective wordOf_fieldsOf |>.eq_iff

theorem fieldsOf_and (v w : Cmd) : fieldsOf (v &&& w) =
    ⟨(fieldsOf v).opc &&& (fieldsOf w).opc, (fieldsOf v).rd &&& (fieldsOf w).rd, (fieldsOf v).rs1 &&& (fieldsOf w).rs1,
     (fieldsOf v).rs2 &&& (fieldsOf w).rs2, (fieldsOf v).s &&& (fieldsOf w).s,
     (fieldsOf v).resv &&& (fieldsOf w).resv⟩ := by
  simp only [fieldsOf, BitVec.extractLsb'_and]

/-- A field masked when it is unused reads 0 exactly when it is used or zero. -/
theorem and_maskIfUnused_eq_zero {n : Nat} (used : Bool) (b : BitVec n) :
    b &&& (if used then 0 else BitVec.allOnes n) = 0 ↔ used = true ∨ b = 0 := by
  cases used <;> simp

/-- A word matches a row's pattern under the row's mask exactly when its fields are a command's in that row. -/
theorem and_mask_eq_match_iff_inRow (w : Cmd) (u : OpcodeUse) :
    w &&& u.pattern.2 = u.pattern.1 ↔ (fieldsOf w).InRow u := by
  rw [← fieldsOf_inj, fieldsOf_and, OpcodeUse.pattern, fieldsOf_wordOf, fieldsOf_wordOf, Cmd32.mk.injEq]
  simp only [BitVec.and_allOnes, and_maskIfUnused_eq_zero]
  exact ⟨fun ⟨hopc, _, hrs1, hrs2, hs, hresv⟩ => ⟨hopc, hresv, hrs1, hrs2, hs⟩,
    fun ⟨hopc, hresv, hrs1, hrs2, hs⟩ => ⟨hopc, BitVec.and_zero, hrs1, hrs2, hs, hresv⟩⟩

/-- Some row's pattern is matched exactly when none of R33's objections holds. -/
theorem matches_pattern_iff_wellFormed (w : Cmd) :
    (∃ p ∈ opcodePatterns, w &&& p.2 = p.1) ↔ (fieldsOf w).wellFormed = true := by
  simp only [opcodePatterns_eq_map, List.mem_map, exists_exists_and_eq_and, and_mask_eq_match_iff_inRow,
    wellFormed_iff_inRow]

/-- Fields in a row of the table decode: the row's opcode selects its arm, and the fields that arm requires to be zero
are the ones the row does not use. -/
theorem decodeFields_of_inRow {f : Cmd32} {u : OpcodeUse} (hu : u ∈ opcodeUses) (hf : f.InRow u) :
    ∃ i, decodeFields f = .ok i := by
  obtain ⟨opc, rd, rs1, rs2, s, resv⟩ := f
  obtain ⟨hopc, -, hrs1, hrs2, hs⟩ := hf
  simp only [opcodeUses, List.mem_cons, List.not_mem_nil, or_false] at hu
  rcases hu with rfl | rfl | rfl | rfl | rfl | rfl | rfl | rfl | rfl <;>
    simp_all [decodeFields, whenUnusedZero]

/-- What the model's laws say of the word of each command, one command at a time (R32, R33). -/
theorem encode_legal (i : Instr) : Laws.Encoding.Statement i := by
  cases i with
  | seed rd rs1 s => exact Laws.Encoding.seed rd rs1 s
  | draw rd s => exact Laws.Encoding.draw rd s
  | range rd rs1 s => exact Laws.Encoding.range rd rs1 s
  | irange rd rs1 rs2 s => exact Laws.Encoding.irange rd rs1 rs2 s
  | fmul rd rs1 rs2 => exact Laws.Encoding.fmul rd rs1 rs2
  | fdiv rd rs1 rs2 => exact Laws.Encoding.fdiv rd rs1 rs2
  | fround rd rs1 => exact Laws.Encoding.fround rd rs1
  | fsqrt rd rs1 => exact Laws.Encoding.fsqrt rd rs1
  | fpow rd rs1 rs2 => exact Laws.Encoding.fpow rd rs1 rs2

/-- The decoder answers a command for exactly the words R33 does not object to. -/
theorem decodes_iff_wellFormed (w : Cmd) : (∃ i, decode w = .ok i) ↔ (fieldsOf w).wellFormed = true := by
  constructor
  · rintro ⟨i, h⟩
    rw [← encodeOfDecodedWordGivesWord w i h]
    exact (encode_legal i).1
  · intro h
    obtain ⟨u, hu, hf⟩ := (wellFormed_iff_inRow _).1 h
    obtain ⟨i, hi⟩ := decodeFields_of_inRow hu hf
    exact ⟨i, decode_ok.2 ⟨hf.resv, hi⟩⟩

/-- A word is not well-formed when one of R33's objections holds. -/
theorem wellFormed_ne_true_iff (f : Cmd32) : ¬ f.wellFormed = true ↔
    f.opcodeDefined = false ∨ f.reservedZero = false ∨ f.unusedZero = false := by
  simp only [Cmd32.wellFormed, Bool.and_eq_true, not_and_or, Bool.not_eq_true, or_assoc]

/-- Settles O3: a word matches a row's pattern exactly when its fields are in that row, and a row is known by its
opcode. -/
theorem decodeAgreesWithOpcodeTable : Obligations.DecodeAgreesWithOpcodeTable := by
  intro w
  refine ⟨(decodes_iff_wellFormed w).trans (matches_pattern_iff_wellFormed w).symm, fun i h => ?_, ?_, ?_⟩
  · rw [← encodeOfDecodedWordGivesWord w i h]
    exact (encode_legal i).2
  · simp only [opcodePatterns_eq_map, List.forall_mem_map, and_mask_eq_match_iff_inRow]
    intro u hu v hv hwu hwv
    rw [opcodeUses_opc_inj u hu v hv (hwu.opc.symm.trans hwv.opc)]
  · rw [← wellFormed_ne_true_iff, ← matches_pattern_iff_wellFormed]
    simp only [not_exists, not_and, ne_eq]

theorem decode_fails_iff (w : Cmd) : (∃ e, decode w = .error e) ↔ ¬ ∃ i, decode w = .ok i := by
  cases decode w <;> simp

end Sys2Proof

namespace Sys2Proof.Machine

/-- With no fault latched the issue of an illegal word faults ILLEGAL, and returns nothing to the host (R33). -/
theorem hostIssue_illegal {s : State} {w : Cmd} {e : DecodeError} (hf : s.fault = false) (hd : decode w = .error e) :
    hostIssue w s = .next ((s.withReply none).raise .illegal w) := by
  simp [hostIssue, hf, hd]

/-- Settles O5: the decoder fails exactly where R33 objects, and the issue of such a word takes the fault ILLEGAL. -/
theorem illegalWordsFaultAndChangeOnlyStatus : Obligations.IllegalWordsFaultAndChangeOnlyStatus := by
  intro w
  refine ⟨?_, ?_⟩
  · rw [decode_fails_iff, decodes_iff_wellFormed, wellFormed_ne_true_iff]
  · rintro s rest ⟨e, hd⟩ hp hf
    exact (step_perform hp).trans (hostIssue_illegal hf hd)

end Sys2Proof.Machine
end

section
/-! PROOFS. The generator's step (R40, R41, R49): its equations on numbers, its inverse, and that seeding never leads to
the all-zero state. -/

namespace Sys2Proof.Machine

/-- R40's rotation on numbers. -/
theorem toNat_rotl32 (x : SWord) (k : Nat) :
    (rotl32 x k).toNat = ((x.toNat <<< k) ||| (x.toNat >>> (32 - k))) % 2 ^ 32 := by
  have hr : x.toNat >>> (32 - k) % 2 ^ 32 = x.toNat >>> (32 - k) :=
    Nat.mod_eq_of_lt ((Nat.shiftRight_le _ _).trans_lt x.isLt)
  rw [rotl32, BitVec.toNat_or, BitVec.toNat_shiftLeft, BitVec.toNat_ushiftRight, Nat.or_mod_two_pow, hr]

/-- Settles O28: each equation of R41 is read as a number by the rule of its operator. -/
theorem genStepIsTheFiveEquations : Obligations.GenStepIsTheFiveEquations := by
  intro st rot e o
  have he : (st.a - rotl32 st.b 27).toNat = e := by rw [BitVec.toNat_sub, toNat_rotl32, Nat.add_comm]
  refine ⟨?_, BitVec.toNat_add st.c st.d, ?_, ?_, rfl⟩
  · exact (BitVec.toNat_xor st.b (rotl32 st.c 17)).trans (by rw [toNat_rotl32])
  · exact (BitVec.toNat_add st.d (st.a - rotl32 st.b 27)).trans (by rw [he])
  · exact (BitVec.toNat_add (st.a - rotl32 st.b 27) o.1.a).trans (by rw [he])

/-- The state a step comes from: R41's five equations solved from the last to the first. -/
def genUnstep (st : GenStream) : GenStream :=
  let e := st.d - st.a
  let d := st.c - e
  let c := st.b - d
  let b := st.a ^^^ rotl32 c Config.rot2
  ⟨e + rotl32 b Config.rot1, b, c, d⟩

theorem genUnstep_genStep (st : GenStream) : genUnstep (genStep st).1 = st := by
  simp [genUnstep, genStep]

theorem genStep_genUnstep (st : GenStream) : (genStep (genUnstep st)).1 = st := by
  simp [genUnstep, genStep]

/-- Settles O29: the step has an inverse on both sides, and at the all-zero state it is evaluated. -/
theorem genStepIsBijective : Obligations.GenStepIsBijective :=
  ⟨Function.bijective_iff_has_inverse.2 ⟨genUnstep, genUnstep_genStep, genStep_genUnstep⟩, by decide⟩

/-- Settles O30: seeding ends in a state that is not all zero, and no step leads from such a one to all zero. -/
theorem seededStreamsAreNeverZero : Obligations.SeededStreamsAreNeverZero :=
  fun seed => nthState_ne_zero (seedState_ne_zero seed)

end Sys2Proof.Machine
end

section
/-! PROOFS. The rejection loop of R43: when an output is accepted, and that `rangedCore`'s bounded search is the unbounded
loop (log 4). -/

namespace Sys2Proof.Machine

/-- R43's divisor is positive for a legal interval. -/
theorem rangeDivisor_pos {n : Nat} (h1 : 1 ≤ n) (h2 : n ≤ 0xFFFFFFFF) : 0 < 0xFFFFFFFF / n := Nat.div_pos h2 h1

/-- The quotient is below `n` exactly when the output is below `n * div`. -/
theorem accepts_iff_lt_mul {n : Nat} (h1 : 1 ≤ n) (h2 : n ≤ 0xFFFFFFFF) (raw : SWord) :
    Accepts n raw ↔ raw.toNat < n * (0xFFFFFFFF / n) :=
  Nat.div_lt_iff_lt_mul (rangeDivisor_pos h1 h2)

/-- The accepted outputs are at least half of all: below half the ceiling the remainder left out is less than `n`, and
from there on the divisor is 1. -/
theorem two_pow_31_le_mul_rangeDivisor {n : Nat} (h1 : 1 ≤ n) (h2 : n ≤ 0xFFFFFFFF) :
    2 ^ 31 ≤ n * (0xFFFFFFFF / n) := by
  rcases Nat.lt_or_ge n (2 ^ 31) with hn | hn
  · have hsplit := Nat.div_add_mod 0xFFFFFFFF n
    have hrem := Nat.mod_lt 0xFFFFFFFF h1
    omega
  · exact hn.trans (Nat.le_mul_of_pos_right n (rangeDivisor_pos h1 h2))

/-- The unbounded loop of R43 either ends with a first accepted attempt or rejects every one. -/
theorem firstAccepted_or_never (n : Nat) (st : GenStream) :
    (∃ j, FirstAccepted n st j) ∨ ∀ j, ¬ Accepts n (nthOutput st j) := by
  classical
  rw [← not_exists]
  exact (em (∃ j, Accepts n (nthOutput st j))).imp
    (fun h => ⟨Nat.find h, Nat.find_spec h, fun _ => Nat.find_min h⟩) id

/-- `rangedCore` answers the first accepted attempt, wherever in the unbounded sequence it stands (log 4). -/
theorem rangedCore_of_firstAccepted {n : Nat} {st : GenStream} {j : Nat} (h : FirstAccepted n st j) :
    rangedCore st n = some (quotientOf n (nthOutput st j), nthState st (j + 1)) :=
  (rangedCore_eq st n).trans (rangedSearch_some h h.lt_streamStates)

/-- `rangedCore` answers nothing when no attempt is ever accepted. -/
theorem rangedCore_of_never {n : Nat} {st : GenStream} (h : ∀ j, ¬ Accepts n (nthOutput st j)) :
    rangedCore st n = none := by
  rw [rangedCore_eq]
  rcases rangedSearch_cases n Config.streamStates st with ⟨j, -, hj, -⟩ | ⟨-, he⟩
  · exact absurd hj.1 (h j)
  · exact he

/-- An accepted output is the first accepted attempt. -/
theorem firstAccepted_zero {n : Nat} {st : GenStream} (h : Accepts n (genStep st).2) : FirstAccepted n st 0 :=
  ⟨h, fun _ hm => absurd hm (Nat.not_lt_zero _)⟩

/-- After a rejected output the first accepted attempt is one later than it is from the next state. -/
theorem FirstAccepted.succ {n : Nat} {st : GenStream} {j : Nat} (h0 : ¬ Accepts n (genStep st).2)
    (h : FirstAccepted n (genStep st).1 j) : FirstAccepted n st (j + 1) := by
  refine ⟨h.1, fun m hm => ?_⟩
  cases m with
  | zero => exact h0
  | succ m => exact h.2 m (Nat.lt_of_succ_lt_succ hm)

/-- `rangedCore` on an accepted output: its quotient, and the stream one step on (R43). -/
theorem rangedCore_accept {n : Nat} {st : GenStream} (h : Accepts n (genStep st).2) :
    rangedCore st n = some (quotientOf n (genStep st).2, (genStep st).1) := by
  rw [rangedCore_of_firstAccepted (firstAccepted_zero h), nthOutput_zero, nthState_succ]
  rfl

/-- `rangedCore` on a rejected output goes on from the next state, as the unbounded loop does (R43; log 4). -/
theorem rangedCore_reject {n : Nat} {st : GenStream} (h : ¬ Accepts n (genStep st).2) :
    rangedCore st n = rangedCore (genStep st).1 n := by
  rcases firstAccepted_or_never n (genStep st).1 with ⟨j, hj⟩ | hnever
  · rw [rangedCore_of_firstAccepted hj, rangedCore_of_firstAccepted (hj.succ h)]; rfl
  · rw [rangedCore_of_never hnever, rangedCore_of_never]
    intro j
    cases j with
    | zero => exact h
    | succ j => exact hnever j

/-- Settles O31: an output is accepted exactly below `n * div`, which is at least `2^31`. -/
theorem acceptedExactlyBelowProduct : Obligations.AcceptedExactlyBelowProduct := by
  intro n st h1 h2
  have hiff := accepts_iff_lt_mul h1 h2 (genStep st).2
  refine ⟨?_, fun hraw => ⟨_, rangedCore_accept (hiff.2 (hraw.trans_le (two_pow_31_le_mul_rangeDivisor h1 h2)))⟩⟩
  split
  · rename_i hlt; exact rangedCore_accept (hiff.2 hlt)
  · rename_i hlt; exact rangedCore_reject (mt hiff.1 hlt)

end Sys2Proof.Machine
end

section
/-! PROOFS. A stream no command names is neither written nor read (R48, R50): every read and every write of the machine
respects agreement but for one stream, and so does every command. -/

namespace Sys2Proof.Machine

/-- Settles O25: a fault touches no stream, and a quiet command's stream is untouched or the one it names. -/
theorem commandsLeaveOtherStreams : Obligations.CommandsLeaveOtherStreams := by
  intro i s t k h hk
  rcases exec_next_cases h with hq | ⟨c, -, rfl⟩
  · rcases hq.streams k with hsame | ⟨rd, rs1, rfl, -⟩ | ⟨hnamed, -⟩
    · exact hsame
    · exact absurd rfl hk
    · exact absurd hnamed hk
  · exact ⟨State.raise_stream s c (encode i) k, State.raise_isSeeded s c (encode i) k⟩

namespace AgreeExceptStream

variable {k : StreamIdx} {s t : State}

/-- The registers read the same. -/
theorem reg_eq (h : AgreeExceptStream k s t) (i : RegIdx) : t.reg i = s.reg i := by
  rw [State.reg, State.reg, h.x]

theorem regS_eq (h : AgreeExceptStream k s t) (i : RegIdx) : t.regS i = s.regS i := congrArg sval (h.reg_eq i)

/-- Writing the same register with the same value keeps the agreement. -/
theorem after_setReg (h : AgreeExceptStream k s t) (i : RegIdx) (v : XWord) :
    AgreeExceptStream k (s.setReg i v) (t.setReg i v) :=
  { h with x := by rw [State.setReg_x, State.setReg_x, h.x] }

/-- Taking the same fault keeps the agreement. -/
theorem after_raise (h : AgreeExceptStream k s t) (c : Cause) (w : Cmd) :
    AgreeExceptStream k (s.raise c w) (t.raise c w) :=
  { h with fault := rfl, cause := rfl, fcmd := rfl }

/-- Writing the same stream with the same words keeps the agreement. -/
theorem after_setStream (h : AgreeExceptStream k s t) (m : StreamIdx) (st : GenStream) :
    AgreeExceptStream k (s.setStream m st) (t.setStream m st) :=
  { h with
    streams := fun j hj => by
      by_cases e : j = m
      · subst e; rw [State.stream_setStream_self, State.stream_setStream_self]
      · rw [State.stream_setStream_ne _ _ e, State.stream_setStream_ne _ _ e, h.streams j hj] }

/-- Marking the same stream as seeded keeps the agreement. -/
theorem after_markSeeded (h : AgreeExceptStream k s t) (m : StreamIdx) :
    AgreeExceptStream k (s.markSeeded m) (t.markSeeded m) :=
  { h with
    seeded := fun j hj => by
      by_cases e : j = m
      · subst e; rw [State.isSeeded_markSeeded_self, State.isSeeded_markSeeded_self]
      · rw [State.isSeeded_markSeeded_ne _ e, State.isSeeded_markSeeded_ne _ e, h.seeded j hj] }

/-- The end of a fixed-point command keeps the agreement. -/
theorem after_finish (h : AgreeExceptStream k s t) (rd : RegIdx) (w : Cmd) (r : Option Int) :
    SameOutcome (AgreeExceptStream k) (finish s rd w r) (finish t rd w r) := by
  cases r with
  | none => exact h.after_raise _ w
  | some v =>
    cases hv : fits64 v with
    | true => rw [finish_fits s rd w hv, finish_fits t rd w hv]; exact h.after_setReg rd _
    | false => rw [finish_overflow s rd w hv, finish_overflow t rd w hv]; exact h.after_raise _ w

/-- A ranged draw from another stream keeps the agreement: it reads that stream and its SEEDED bit only. -/
theorem after_rangedCommand (h : AgreeExceptStream k s t) {m : StreamIdx} (hm : m ≠ k) (rd : RegIdx) (base n : Int)
    (w : Cmd) :
    SameOutcome (AgreeExceptStream k) (rangedCommand rd m base n w s) (rangedCommand rd m base n w t) := by
  rw [rangedCommand, rangedCommand, h.seeded m hm, h.streams m hm]
  split
  · exact h.after_raise _ w
  · split
    · exact h.after_raise _ w
    · cases rangedCore (s.stream m) n.toNat with
      | none => exact rfl
      | some out => exact (h.after_setStream m out.2).after_setReg rd _

end AgreeExceptStream

/-- Settles O26: a command reads registers, its own stream, the ROM and the brackets, on all of which the two states
agree, and what it does with them keeps the agreement. -/
theorem commandsDoNotReadOtherStreams : Obligations.CommandsDoNotReadOtherStreams := by
  intro i s t k hk h
  cases i with
  | seed rd rs1 m =>
    rw [exec, exec, execSeed, execSeed, h.reg_eq]
    split
    · exact h.after_setReg rd _
    · exact ((h.after_setStream m _).after_markSeeded m).after_setReg rd _
  | draw rd m =>
    have hm : m ≠ k := fun e => hk (congrArg some e)
    rw [exec, exec, execDraw, execDraw, h.seeded m hm, h.streams m hm]
    split
    · exact h.after_raise _ _
    · exact (h.after_setStream m _).after_setReg rd _
  | range rd rs1 m =>
    have hm : m ≠ k := fun e => hk (congrArg some e)
    rw [exec, exec, execRange, execRange, h.regS_eq]
    exact h.after_rangedCommand hm rd _ _ _
  | irange rd rs1 rs2 m =>
    have hm : m ≠ k := fun e => hk (congrArg some e)
    rw [exec, exec, execIrange, execIrange, h.regS_eq, h.regS_eq]
    split
    · exact h.after_setReg rd _
    · exact h.after_rangedCommand hm rd _ _ _
  | fmul rd rs1 rs2 =>
    rw [exec, exec, execFmul, execFmul, h.regS_eq, h.regS_eq]
    exact h.after_finish rd _ _
  | fdiv rd rs1 rs2 =>
    rw [exec, exec, execFdiv, execFdiv, h.regS_eq, h.regS_eq]
    split
    · exact h.after_raise _ _
    · exact h.after_finish rd _ _
  | fround rd rs1 =>
    rw [exec, exec, execFround, execFround, h.regS_eq]
    exact h.after_setReg rd _
  | fsqrt rd rs1 =>
    rw [exec, exec, execFsqrt, execFsqrt, h.regS_eq, h.rom, h.brackets]
    exact h.after_setReg rd _
  | fpow rd rs1 rs2 =>
    rw [exec, exec, execFpow, execFpow, h.regS_eq, h.regS_eq]
    exact h.after_finish rd _ _

end Sys2Proof.Machine
end

section
/-! PROOFS. SEED and DRAW (R44, R45): their words, their values and what they leave unchanged. -/

namespace Sys2Proof.Machine

/-- Writing one stream and one register leaves everything else as it is. -/
theorem writesOnlyRegAndStream_draw (s : State) (rd : RegIdx) (k : StreamIdx) (st : GenStream) (v : XWord) :
    WritesOnlyRegAndStream rd k s ((s.setStream k st).setReg rd v) :=
  ⟨fun _ h => State.reg_setReg_ne _ v h, fun _ h => State.stream_setStream_ne s st h, fun _ _ => rfl,
    rfl, rfl, rfl, rfl, rfl, rfl, rfl⟩

/-- Seeding one stream and writing one register leaves everything else as it is. -/
theorem writesOnlyRegAndStream_seed (s : State) (rd : RegIdx) (k : StreamIdx) (st : GenStream) (v : XWord) :
    WritesOnlyRegAndStream rd k s (((s.setStream k st).markSeeded k).setReg rd v) :=
  ⟨fun _ h => State.reg_setReg_ne _ v h, fun _ h => State.stream_setStream_ne s st h,
    fun _ h => State.isSeeded_markSeeded_ne _ h, rfl, rfl, rfl, rfl, rfl, rfl, rfl⟩

/-- SEED with a non-zero seed initialises the stream (R44). -/
theorem exec_seed_of_ne_zero {s : State} {rs1 : RegIdx} (h : s.reg rs1 ≠ 0) (rd : RegIdx) (k : StreamIdx) :
    exec (.seed rd rs1 k) s =
      .next (((s.setStream k (seedState (s.reg rs1))).markSeeded k).setReg rd (s.reg rs1)) :=
  if_neg fun h0 => h (BitVec.eq_of_toNat_eq h0)

/-- SEED with the sentinel 0 writes its destination only (R44). -/
theorem exec_seed_of_eq_zero {s : State} {rs1 : RegIdx} (h : s.reg rs1 = 0) (rd : RegIdx) (k : StreamIdx) :
    exec (.seed rd rs1 k) s = .next (s.setReg rd (s.reg rs1)) :=
  if_pos (by rw [h]; rfl)

/-- The warmed-up state in terms of the seed as a number: 20 steps from R42's start. -/
theorem seedState_eq_nthState (seed : XWord) :
    seedState seed = nthState ⟨0xF1EA5EED, BitVec.ofNat 32 (seed.toNat % 2 ^ 32),
      BitVec.ofNat 32 (seed.toNat % 2 ^ 32) ^^^ BitVec.ofNat 32 (seed.toNat / 2 ^ 32),
      BitVec.ofNat 32 (seed.toNat % 2 ^ 32)⟩ 20 := by
  have hlo : seed.extractLsb' 0 32 = BitVec.ofNat 32 (seed.toNat % 2 ^ 32) :=
    BitVec.eq_of_toNat_eq (by simp [BitVec.extractLsb'_toNat])
  have hhi : seed.extractLsb' 32 32 = BitVec.ofNat 32 (seed.toNat / 2 ^ 32) :=
    BitVec.eq_of_toNat_eq (by simp [BitVec.extractLsb'_toNat, Nat.shiftRight_eq_div_pow])
  rw [seedState, discard_eq, seedStart, hlo, hhi, Config.seedConst, Config.warmup]

/-- Settles O32: the two outcomes of SEED with their frames. -/
theorem seedInitialisesStreamOrReturnsZero : Obligations.SeedInitialisesStreamOrReturnsZero := by
  intro s rd rs1 k
  refine ⟨(encode_legal (.seed rd rs1 k)).2.2, fun h => ?_, fun h => ?_⟩
  · refine ⟨_, exec_seed_of_ne_zero h rd k, State.reg_setReg_self _ rd _, ?_, ?_, writesOnlyRegAndStream_seed s rd k _ _⟩
    · rw [State.setReg_stream, State.markSeeded_stream, State.stream_setStream_self, seedState_eq_nthState]
    · rw [State.setReg_isSeeded, State.isSeeded_markSeeded_self]
  · exact ⟨_, exec_seed_of_eq_zero h rd k, (State.reg_setReg_self _ rd _).trans h, writesOnlyReg_setReg s rd _⟩

/-- DRAW from a seeded stream is one step of it, with the output zero-extended (R45). -/
theorem exec_draw_of_seeded {s : State} {k : StreamIdx} (h : s.isSeeded k = true) (rd : RegIdx) :
    exec (.draw rd k) s =
      .next ((s.setStream k (genStep (s.stream k)).1).setReg rd ((genStep (s.stream k)).2.setWidth 64)) :=
  if_neg (by simp [h])

/-- Settles O33: the two outcomes of DRAW; zero-extension keeps the output's number. -/
theorem drawStepsOnceOrFaultsUnseeded : Obligations.DrawStepsOnceOrFaultsUnseeded := by
  intro s rd k
  refine ⟨(encode_legal (.draw rd k)).2.2, fun h => ?_, fun h => if_pos h⟩
  refine ⟨_, exec_draw_of_seeded h rd, ?_, ?_, h, writesOnlyRegAndStream_draw s rd k _ _⟩
  · rw [State.reg_setReg_self, BitVec.toNat_setWidth_of_le (by decide)]
  · rw [State.setReg_stream, State.stream_setStream_self]

end Sys2Proof.Machine
end

section
/-! PROOFS. RANGE and IRANGE (R46, R47, R49): what their shared part does in each case, then the two commands from it. -/

namespace Sys2Proof.Machine

/-- An interval outside `[1, 2^32 - 1]` faults RANGE_ARG, whether or not the stream is seeded (R46, R61). -/
theorem rangedCommand_badInterval {n : Int} (h : n ≤ 0 ∨ 0xFFFFFFFF < n) (rd : RegIdx) (k : StreamIdx) (base : Int)
    (w : Cmd) (s : State) : rangedCommand rd k base n w s = .next (s.faulted 3 w) :=
  if_pos h

/-- A legal interval passes the check of R46. -/
theorem legal_interval {n : Int} (h1 : 1 ≤ n) (h2 : n ≤ 0xFFFFFFFF) : ¬ (n ≤ 0 ∨ (Config.rangeMax : Int) < n) :=
  not_or.2 ⟨not_le.2 h1, not_lt.2 h2⟩

section LegalInterval
variable {n : Int} {k : StreamIdx} {s : State} (h1 : 1 ≤ n) (h2 : n ≤ 0xFFFFFFFF)
include h1 h2

/-- A legal interval on an unseeded stream faults UNSEEDED (R46). -/
theorem rangedCommand_unseeded (hs : s.isSeeded k = false) (rd : RegIdx) (base : Int) (w : Cmd) :
    rangedCommand rd k base n w s = .next (s.faulted 2 w) := by
  rw [rangedCommand, if_neg (legal_interval h1 h2), if_pos hs]
  rfl

/-- A legal interval on a seeded stream writes the first accepted attempt and steps the stream past it (R43, R46). -/
theorem rangedCommand_firstAccepted (hs : s.isSeeded k = true) {j : Nat} (hj : FirstAccepted n.toNat (s.stream k) j)
    (rd : RegIdx) (base : Int) (w : Cmd) :
    rangedCommand rd k base n w s = .next ((s.setStream k (nthState (s.stream k) (j + 1))).setInt rd
      (base + (quotientOf n.toNat (nthOutput (s.stream k) j) : Nat))) := by
  rw [rangedCommand, if_neg (legal_interval h1 h2), if_neg (by simp [hs]), rangedCore_of_firstAccepted hj]

/-- A legal interval on a seeded stream hangs exactly when the unbounded loop rejects every attempt (R49; log 4). -/
theorem rangedCommand_hangs_iff (hs : s.isSeeded k = true) (rd : RegIdx) (base : Int) (w : Cmd) :
    rangedCommand rd k base n w s = .fault .hang ↔ ∀ j, ¬ Accepts n.toNat (nthOutput (s.stream k) j) := by
  rcases firstAccepted_or_never n.toNat (s.stream k) with ⟨j, hj⟩ | hnever
  · rw [rangedCommand_firstAccepted h1 h2 hs hj]
    exact ⟨nofun, fun h => absurd hj.1 (h j)⟩
  · rw [rangedCommand, if_neg (legal_interval h1 h2), if_neg (by simp [hs]), rangedCore_of_never hnever]
    exact iff_of_true rfl hnever

end LegalInterval

/-- A register reads back `base + r` for an `r` below `n` when the interval `[base, base + n)` fits 64 bits. -/
theorem toInt_reg_setInt_add {base n : Int} (hlo : Fits base) (hhi : Fits (base + n - 1)) {r : Nat} (hr : r < n.toNat)
    (s : State) (rd : RegIdx) : ((s.setInt rd (base + r)).reg rd).toInt = base + r := by
  have hfit : Fits (base + r) := by unfold Fits at *; omega
  rw [State.reg_setInt_self]
  exact sval_pattern (fits64_eq_true.2 hfit)

/-- A ranged draw in full: the value exactly, the stream, and the frame. -/
theorem rangedCommand_draws {base n : Int} (hlo : Fits base) (hhi : Fits (base + n - 1)) (h1 : 1 ≤ n)
    (h2 : n ≤ 0xFFFFFFFF) {k : StreamIdx} {s : State} (hs : s.isSeeded k = true) {j : Nat}
    (hj : FirstAccepted n.toNat (s.stream k) j) (rd : RegIdx) (w : Cmd) :
    ∃ t, rangedCommand rd k base n w s = .next t ∧
      (t.reg rd).toInt = base + quotientOf n.toNat (nthOutput (s.stream k) j) ∧
      t.stream k = nthState (s.stream k) (j + 1) ∧ t.isSeeded k = true ∧ WritesOnlyRegAndStream rd k s t := by
  refine ⟨_, rangedCommand_firstAccepted h1 h2 hs hj rd base w, toInt_reg_setInt_add hlo hhi hj.1 _ rd, ?_, hs,
    writesOnlyRegAndStream_draw s rd k _ _⟩
  rw [State.setInt_stream, State.stream_setStream_self]

/-- A ranged draw that completes without a fault leaves a value of `[base, base + n)` in its destination. -/
theorem rangedCommand_result_mem {base n : Int} (hlo : Fits base) (hhi : 1 ≤ n → Fits (base + n - 1)) {rd : RegIdx}
    {k : StreamIdx} {w : Cmd} {s t : State} (h : rangedCommand rd k base n w s = .next t) (ht : t.fault = false) :
    base ≤ (t.reg rd).toInt ∧ (t.reg rd).toInt < base + n := by
  rcases rangedCommand_cases rd k base n w s with ⟨-, he⟩ | ⟨-, -, -, he⟩ | ⟨h1, -, -, j, hj, he⟩ | ⟨-, -, -, -, he⟩ <;>
    cases he.symm.trans h
  · exact nomatch (ht : true = false)
  · exact nomatch (ht : true = false)
  · rw [toInt_reg_setInt_add hlo (hhi h1) hj.1]
    have hlt : quotientOf n.toNat (nthOutput (s.stream k) j) < n.toNat := hj.1
    omega

/-- A register's signed reading fits 64 bits. -/
theorem fits_toInt (p : XWord) : Fits p.toInt := fits64_eq_true.1 (fits64_sval p)

/-- RANGE is a ranged draw with base 0 (R46). -/
theorem exec_range (rd rs1 : RegIdx) (k : StreamIdx) (s : State) :
    exec (.range rd rs1 k) s = rangedCommand rd k 0 (s.reg rs1).toInt (encode (.range rd rs1 k)) s := rfl

theorem fits_zero : Fits 0 := ⟨by decide, by decide⟩

/-- A legal interval of RANGE ends within 64 bits. -/
theorem fits_range_end (p : XWord) (h : 1 ≤ p.toInt) : Fits (0 + p.toInt - 1) := by
  have := fits_toInt p
  unfold Fits at *
  omega

/-- Settles O34: the cases of the shared part with base 0. -/
theorem rangeTakesFirstAcceptedDraw : Obligations.RangeTakesFirstAcceptedDraw := by
  intro s rd rs1 k n w
  refine ⟨(encode_legal (.range rd rs1 k)).2.2, fun h => rangedCommand_badInterval h rd k 0 w s,
    fun h1 h2 hs => rangedCommand_unseeded h1 h2 hs rd 0 w, fun h1 h2 hs j hj => ?_⟩
  have hdraw := rangedCommand_draws fits_zero (fits_range_end _ h1) h1 h2 hs hj rd w
  rwa [zero_add] at hdraw

/-- Settles O35: RANGE is its shared part. -/
theorem rangeHangsExactlyWhenNothingAccepted : Obligations.RangeHangsExactlyWhenNothingAccepted :=
  fun _ rd rs1 k h1 h2 hs => rangedCommand_hangs_iff h1 h2 hs rd 0 (encode (.range rd rs1 k))

/-- Settles O36: a RANGE without a fault drew its value, from `[0, 0 + n)`. -/
theorem rangeResultIsBelowN : Obligations.RangeResultIsBelowN := by
  intro s t rd rs1 k _ h ht
  have hmem := rangedCommand_result_mem fits_zero (fits_range_end _) ((exec_range rd rs1 k s).symm.trans h) ht
  rwa [zero_add] at hmem

/-- IRANGE with `upper <= lower` writes `lower` and reads no stream (R47). -/
theorem exec_irange_of_le {s : State} {rs1 rs2 : RegIdx} (h : (s.reg rs2).toInt ≤ (s.reg rs1).toInt) (rd : RegIdx)
    (k : StreamIdx) : exec (.irange rd rs1 rs2 k) s = .next (s.setInt rd (s.reg rs1).toInt) := if_pos h

/-- IRANGE with `lower < upper` is a ranged draw from `lower` on (R47). -/
theorem exec_irange_of_lt {s : State} {rs1 rs2 : RegIdx} (h : (s.reg rs1).toInt < (s.reg rs2).toInt) (rd : RegIdx)
    (k : StreamIdx) :
    exec (.irange rd rs1 rs2 k) s = rangedCommand rd k (s.reg rs1).toInt ((s.reg rs2).toInt - (s.reg rs1).toInt + 1)
      (encode (.irange rd rs1 rs2 k)) s := if_neg (not_le.2 h)

/-- A register's signed reading is read back from the pattern it is written as. -/
theorem toInt_reg_setInt_toInt (s : State) (rd : RegIdx) (p : XWord) : ((s.setInt rd p.toInt).reg rd).toInt = p.toInt := by
  rw [State.reg_setInt_self]
  exact congrArg sval (pattern_sval p)

/-- IRANGE's interval ends at `upper`, within 64 bits. -/
theorem fits_irange_end (p q : XWord) : Fits (p.toInt + (q.toInt - p.toInt + 1) - 1) := by
  rw [show p.toInt + (q.toInt - p.toInt + 1) - 1 = q.toInt by omega]
  exact fits_toInt q

/-- Settles O37: the short-circuit, then the cases of the shared part with base `lower`. -/
theorem irangeShortCircuitsFaultsOrDraws : Obligations.IrangeShortCircuitsFaultsOrDraws := by
  intro s rd rs1 rs2 k lower upper n w
  have hn : lower < upper → 1 ≤ n := fun hlt => by omega
  refine ⟨(encode_legal (.irange rd rs1 rs2 k)).2.2, fun hle => ?_, fun hlt h2 => ?_, fun hlt h2 hs => ?_,
    fun hlt h2 hs j hj => ?_⟩
  · exact ⟨_, exec_irange_of_le hle rd k, toInt_reg_setInt_toInt s rd _, writesOnlyReg_setReg s rd _⟩
  · exact (exec_irange_of_lt hlt rd k).trans (rangedCommand_badInterval (.inr h2) rd k lower w s)
  · exact (exec_irange_of_lt hlt rd k).trans (rangedCommand_unseeded (hn hlt) h2 hs rd lower w)
  · rw [exec_irange_of_lt hlt]
    exact rangedCommand_draws (fits_toInt _) (fits_irange_end _ _) (hn hlt) h2 hs hj rd w

/-- Settles O38: an IRANGE that has to draw is its shared part. -/
theorem irangeHangsExactlyWhenNothingAccepted : Obligations.IrangeHangsExactlyWhenNothingAccepted := by
  intro s rd rs1 rs2 k hlt h2 hs
  rw [exec_irange_of_lt hlt]
  exact rangedCommand_hangs_iff (by omega) h2 hs rd _ _

/-- Settles O39: the short-circuit reads `lower` back, and a draw is from `[lower, lower + n)`, where `lower + n` is
`upper + 1`. -/
theorem irangeResultIsInInterval : Obligations.IrangeResultIsInInterval := by
  intro s t rd rs1 rs2 k _ h ht
  split
  · rename_i hle
    cases (exec_irange_of_le hle rd k).symm.trans h
    exact toInt_reg_setInt_toInt s rd _
  · rename_i hlt
    rw [exec_irange_of_lt (not_le.1 hlt)] at h
    have hmem := rangedCommand_result_mem (fits_toInt _) (fun _ => fits_irange_end _ _) h ht
    omega

end Sys2Proof.Machine
end

section
/-! PROOFS. FMUL and FDIV (R50, R51, R52): what the end of a fixed-point command leaves, then the two commands from it. -/

namespace Sys2Proof.Machine

/-- A number that fits 64 bits is read back from the register it is written to. -/
theorem toInt_reg_setInt_of_fits {v : Int} (h : Fits v) (s : State) (rd : RegIdx) :
    ((s.setInt rd v).reg rd).toInt = v := by
  rw [State.reg_setInt_self]
  exact sval_pattern (fits64_eq_true.2 h)

/-- Writing one number to a register leaves everything else as it is. -/
theorem writesOnlyReg_setInt (s : State) (rd : RegIdx) (v : Int) : WritesOnlyReg rd s (s.setInt rd v) :=
  writesOnlyReg_setReg s rd (pattern v)

/-- A fixed-point command whose result fits 64 bits writes exactly that result and nothing else (R50). -/
theorem finish_writes {v : Int} (h : Fits v) (s : State) (rd : RegIdx) (w : Cmd) :
    ∃ t, finish s rd w (some v) = .next t ∧ (t.reg rd).toInt = v ∧ WritesOnlyReg rd s t :=
  ⟨_, finish_fits s rd w (fits64_eq_true.2 h), toInt_reg_setInt_of_fits h s rd, writesOnlyReg_setInt s rd v⟩

/-- A fixed-point command whose result does not fit 64 bits takes the fault OVERFLOW (R50). -/
theorem finish_faults {v : Int} (h : ¬ Fits v) (s : State) (rd : RegIdx) (w : Cmd) :
    finish s rd w (some v) = .next (s.faulted 5 w) :=
  finish_overflow s rd w (Bool.eq_false_iff.2 (mt fits64_eq_true.1 h))

/-- Settles O40: FMUL is the end of a fixed-point command on R51's product. -/
theorem fmulTruncatesOrOverflows : Obligations.FmulTruncatesOrOverflows := fun s rd rs1 rs2 =>
  ⟨(encode_legal (.fmul rd rs1 rs2)).2.2, fun h => finish_writes h s rd _, fun h => finish_faults h s rd _⟩

/-- FDIV by a divisor other than 0 is the end of a fixed-point command on R52's quotient. -/
theorem exec_fdiv_of_ne_zero {s : State} {rs2 : RegIdx} (h : (s.reg rs2).toInt ≠ 0) (rd rs1 : RegIdx) :
    exec (.fdiv rd rs1 rs2) s = finish s rd (encode (.fdiv rd rs1 rs2))
      (some (((s.reg rs1).toInt * 65536).tdiv (s.reg rs2).toInt)) := if_neg h

/-- Settles O41: the divisor is tested first, and what is left is the end of a fixed-point command. -/
theorem fdivTruncatesOrFaults : Obligations.FdivTruncatesOrFaults := by
  intro s rd rs1 rs2 y v w
  refine ⟨(encode_legal (.fdiv rd rs1 rs2)).2.2, fun h0 => if_pos h0, fun h0 h => ?_, fun h0 h => ?_⟩
  · rw [exec_fdiv_of_ne_zero h0]; exact finish_writes h s rd w
  · rw [exec_fdiv_of_ne_zero h0]; exact finish_faults h s rd w

/-- Settles O56: with 1.0 as second operand R51's product and R52's quotient are the first operand, which fits. -/
theorem oneIsNeutralForFmulAndFdiv : Obligations.OneIsNeutralForFmulAndFdiv := by
  intro s rd rs1 rs2 hone
  have hy : (s.reg rs2).toInt = 65536 := by rw [hone]; rfl
  have hv : ((s.reg rs1).toInt * 65536).tdiv 65536 = (s.reg rs1).toInt := Int.mul_tdiv_cancel _ (by decide)
  constructor
  · obtain ⟨-, hwrite, -⟩ := fmulTruncatesOrOverflows s rd rs1 rs2
    rw [hy, hv] at hwrite
    obtain ⟨t, he, hval, -⟩ := hwrite (fits_toInt _)
    exact ⟨t, he, BitVec.eq_of_toInt_eq hval⟩
  · obtain ⟨-, -, hwrite, -⟩ := fdivTruncatesOrFaults s rd rs1 rs2
    rw [hy, hv] at hwrite
    obtain ⟨t, he, hval, -⟩ := hwrite (by decide) (fits_toInt _)
    exact ⟨t, he, BitVec.eq_of_toInt_eq hval⟩

end Sys2Proof.Machine
end

section
/-! PROOFS. FROUND (R53): `Round` in closed form, first of a magnitude, then of its negation. -/

namespace Sys2Proof.Machine

/-- `Round` of a number that is not negative adds half the scale and cuts the fraction off. -/
theorem fixRound_natCast (n : Nat) : fixRound n = ((n + 2 ^ 15) / 2 ^ 16 : Nat) := by
  have hn : (0 : Int) ≤ n := Int.natCast_nonneg n
  rw [fixRound_eq, Int.tdiv_eq_ediv_of_nonneg hn, Int.tmod_eq_emod_of_nonneg hn]
  split
  · rename_i hr
    rw [Int.sign_natCast_of_ne_zero (by omega)]
    omega
  · omega

/-- `Round` is odd: quotient, remainder and sign all change sign with the number. -/
theorem fixRound_neg (x : Int) : fixRound (-x) = -fixRound x := by
  rw [fixRound_eq, fixRound_eq, Int.neg_tdiv, Int.neg_tmod, Int.sign_neg]
  split <;> split <;> omega

/-- R53's derived closed form of `Round`. -/
theorem fixRound_eq_sign_mul (x : Int) : fixRound x = x.sign * ((x.natAbs + 2 ^ 15) / 2 ^ 16 : Nat) := by
  have hnat (n : Nat) : fixRound n = (n : Int).sign * ((n + 2 ^ 15) / 2 ^ 16 : Nat) := by
    rw [fixRound_natCast]
    cases n with
    | zero => rfl
    | succ n => rw [Int.sign_natCast_of_ne_zero n.succ_ne_zero, one_mul]
  obtain ⟨n, rfl | rfl⟩ := Int.eq_nat_or_neg x
  · exact hnat n
  · rw [fixRound_neg, hnat, Int.sign_neg, Int.natAbs_neg, Int.neg_mul, Int.natAbs_natCast]

/-- Rounding a 64-bit value leaves a magnitude of at most `2^47` (R53). -/
theorem natAbs_fixRound_le {x : Int} (h : Fits x) : (fixRound x).natAbs ≤ 2 ^ 47 := by
  have hx : x.natAbs ≤ 2 ^ 63 := by unfold Fits at h; omega
  have hsign : x.sign.natAbs ≤ 1 := by rw [Int.natAbs_sign]; split <;> decide
  calc (fixRound x).natAbs = x.sign.natAbs * ((x.natAbs + 2 ^ 15) / 2 ^ 16) := by
        rw [fixRound_eq_sign_mul, Int.natAbs_mul, Int.natAbs_natCast]
    _ ≤ 1 * ((x.natAbs + 2 ^ 15) / 2 ^ 16) := Nat.mul_le_mul_right _ hsign
    _ ≤ 2 ^ 47 := by omega

/-- FROUND writes `Round` of its operand, exactly and as the only change (R53). -/
theorem fround_writes (s : State) (rd rs1 : RegIdx) : ∃ t, exec (.fround rd rs1) s = .next t ∧
    (t.reg rd).toInt = fixRound (s.reg rs1).toInt ∧ WritesOnlyReg rd s t := by
  have hfit : Fits (fixRound (s.reg rs1).toInt) := by
    have := natAbs_fixRound_le (fits_toInt (s.reg rs1))
    unfold Fits; omega
  exact ⟨_, rfl, toInt_reg_setInt_of_fits hfit s rd, writesOnlyReg_setInt s rd _⟩

/-- Settles O42: FROUND's result is `Round`, whose remainder is what the truncated quotient leaves. -/
theorem froundRoundsHalfAwayFromZero : Obligations.FroundRoundsHalfAwayFromZero := by
  intro s rd rs1 x q r
  obtain ⟨t, he, hval, hframe⟩ := fround_writes s rd rs1
  refine ⟨(encode_legal (.fround rd rs1)).2.2, t, he, ?_, hval ▸ natAbs_fixRound_le (fits_toInt _), hframe⟩
  rw [hval, fixRound_eq, Int.tmod_def]

/-- Settles O43: FROUND's result is `Round`, in its closed form. -/
theorem froundIsSignTimesFloor : Obligations.FroundIsSignTimesFloor := by
  intro s rd rs1
  obtain ⟨t, he, hval, -⟩ := fround_writes s rd rs1
  exact ⟨t, he, hval.trans (fixRound_eq_sign_mul _)⟩

end Sys2Proof.Machine
end

section
/-! PROOFS. FSQRT (R55, R56): that it completes, the table inputs, the sign flip, and the bisection off the table. -/

namespace Sys2Proof.Machine

/-- FSQRT writes the pattern of `Sqrt` of its operand, whatever the ROM and the brackets (R56; log 18). -/
theorem exec_fsqrt (rd rs1 : RegIdx) (s : State) : exec (.fsqrt rd rs1) s =
    .next (s.setInt rd (fixSqrt (bracketRead s.brackets) s.rom (s.reg rs1).toInt)) := rfl

/-- Settles O44: FSQRT is one register write. -/
theorem fsqrtAlwaysCompletes : Obligations.FsqrtAlwaysCompletes := fun s rd rs1 =>
  ⟨(encode_legal (.fsqrt rd rs1)).2.2, _, exec_fsqrt rd rs1 s, State.reg_setInt_self s rd _,
    writesOnlyReg_setReg s rd _⟩

/-- Settles O46: a negative input takes R55's first case. -/
theorem sqrtFlipsSign : Obligations.SqrtFlipsSign := by
  intro bracket rom v hv
  rw [fixSqrt, if_pos (by omega), neg_neg, fixSqrt, if_neg (by omega)]

/-- The fixed-point encodings of 0 to 127 pass R55's table test. -/
theorem isTableInput_scaled : ∀ k : Fin 128, isTableInput (k.val * 65536) = true := by decide

/-- The table index of the fixed-point encoding of `k` is `k`. -/
theorem tableIndex_scaled : ∀ k : Fin 128, tableIndex (k.val * 65536) = k := by decide

/-- `Sqrt` of the fixed-point encoding of `k` is ROM entry `k` (R55). -/
theorem fixSqrt_scaled (bracket : Nat → Bracket) (rom : Vector XWord 128) (k : Fin 128) :
    fixSqrt bracket rom (k.val * 65536) = sval (romRead rom k) := by
  have h := fixSqrt_nonneg bracket rom (k.val * 65536)
  rw [sqrtNonneg_table (isTableInput_scaled k), tableIndex_scaled] at h
  exact_mod_cast h

/-- The pattern of a negated signed reading is the negated pattern, also where it wraps (log 18). -/
theorem pattern_neg_sval (p : XWord) : pattern (-sval p) = -p := by
  rw [pattern, BitVec.ofInt_neg]
  exact congrArg _ (pattern_sval p)

/-- Settles O45: `Sqrt` of a table input is a ROM entry, and the negative ones flip the sign. -/
theorem fsqrtReadsRomForTableInputs : Obligations.FsqrtReadsRomForTableInputs := by
  intro s rd rs1 k
  have hwrites (p : XWord) (hp : pattern (fixSqrt (bracketRead s.brackets) s.rom (s.reg rs1).toInt) = p) :
      ∃ t, exec (.fsqrt rd rs1) s = .next t ∧ t.reg rd = p ∧ WritesOnlyReg rd s t :=
    ⟨_, exec_fsqrt rd rs1 s, (State.reg_setInt_self s rd _).trans hp, writesOnlyReg_setReg s rd _⟩
  refine ⟨fun h => hwrites _ ?_, fun hk h => hwrites _ ?_⟩
  · rw [h, fixSqrt_scaled, pattern_sval]
  · rw [h, sqrtFlipsSign _ _ _ (by omega), fixSqrt_scaled, pattern_neg_sval]

/-- `msbpos` is the number of bits (R54). -/
theorem msbpos_eq {v m : Nat} (h1 : 2 ^ (m - 1) ≤ v) (h2 : v < 2 ^ m) : msbpos v = m := by
  cases m with
  | zero => exact absurd (h1.trans_lt h2) (by decide)
  | succ m =>
    have hv : v ≠ 0 := Nat.ne_of_gt ((Nat.two_pow_pos _).trans_le h1)
    exact congrArg (· + 1) ((Nat.log2_eq_iff hv).2 ⟨h1, h2⟩)

/-- Settles O48: the model's bisection is R55's loop, from the bracket of the input's number of bits. -/
theorem sqrtIsTheLastMidpoint : Obligations.SqrtIsTheLastMidpoint := by
  intro bracket rom v m ht h1 h2
  rw [fixSqrt_nonneg, ← msbpos_eq h1 h2]
  exact sqrtNonneg_bisects ht

end Sys2Proof.Machine
end

section
/-! PROOFS. How near the bisection comes to the root (R55, R59): comparing `Mul(c, c)` with the input is comparing `c^2`
with the input at the scale, the default bracket encloses the root, and so does every bracket the loop passes. -/

namespace Sys2Proof.Machine

theorem fixMul_self_eq_ediv (c : Int) : fixMul c c = c ^ 2 / 65536 := by
  rw [fixMul_eq, sq, Int.tdiv_eq_ediv_of_nonneg (mul_self_nonneg c)]

/-- `Mul(c, c)` is below `v` exactly when `c` is below the root. -/
theorem fixMul_self_lt_iff {c v : Int} : fixMul c c < v ↔ c ^ 2 < v * 65536 := by
  rw [fixMul_self_eq_ediv]; omega

/-- `Mul(c, c)` is above `v` exactly when `c^2` reaches the next number at the scale. -/
theorem lt_fixMul_self_iff {c v : Int} : v < fixMul c c ↔ (v + 1) * 65536 ≤ c ^ 2 := by
  rw [fixMul_self_eq_ediv]; omega

/-- `Mul(c, c)` is `v` exactly when `c^2` lies less than one scale above the root's square. -/
theorem fixMul_self_eq_iff {c v : Int} : fixMul c c = v ↔ v * 65536 ≤ c ^ 2 ∧ c ^ 2 < (v + 1) * 65536 := by
  rw [fixMul_self_eq_ediv]; omega

/-- The default lower bound is below the root: `lower^2 <= 2^(m+14)` (R55). -/
theorem sqrtBracket_lower_sq_lt {v : Nat} (hv : 0 < v) : (Config.sqrtBracket (msbpos v)).lower ^ 2 < v * 2 ^ 16 := by
  calc (2 ^ ((msbpos v + 14) / 2)) ^ 2 = 2 ^ ((msbpos v + 14) / 2 * 2) := (pow_mul ..).symm
    _ ≤ 2 ^ (v.log2 + 15) := Nat.pow_le_pow_right two_pos (by unfold msbpos; omega)
    _ = 2 ^ v.log2 * 2 ^ 15 := pow_add ..
    _ < v * 2 ^ 16 := by have := Nat.log2_self_le hv.ne'; omega

/-- The default upper bound is above the root by at least one unit of the input: `upper^2 >= 2^(m+16)` (R55). -/
theorem succ_mul_le_sqrtBracket_upper_sq (v : Nat) :
    (v + 1) * 2 ^ 16 ≤ (Config.sqrtBracket (msbpos v)).upper ^ 2 := by
  calc (v + 1) * 2 ^ 16 ≤ 2 ^ msbpos v * 2 ^ 16 := Nat.mul_le_mul_right _ Nat.lt_log2_self
    _ = 2 ^ (msbpos v + 16) := (pow_add ..).symm
    _ ≤ 2 ^ ((msbpos v + 17) / 2 * 2) := Nat.pow_le_pow_right two_pos (by omega)
    _ = (2 ^ ((msbpos v + 17) / 2)) ^ 2 := pow_mul ..

/-- The default upper bound is at least twice the lower one, which is at least `2^7` (R55). -/
theorem sqrtBracket_width {m : Nat} (hm : 1 ≤ m) :
    (Config.sqrtBracket m).lower + 2 ^ 7 ≤ (Config.sqrtBracket m).upper := by
  calc 2 ^ ((m + 14) / 2) + 2 ^ 7 ≤ 2 ^ ((m + 14) / 2) + 2 ^ ((m + 14) / 2) :=
        Nat.add_le_add_left (Nat.pow_le_pow_right two_pos (by omega)) _
    _ = 2 ^ ((m + 14) / 2 + 1) := by rw [pow_succ, Nat.mul_two]
    _ ≤ 2 ^ ((m + 17) / 2) := Nat.pow_le_pow_right two_pos (by omega)

/-- Settles O47: the squares of the default bounds against the input at the scale. -/
theorem bracketEnclosesRoot : Obligations.BracketEnclosesRoot := by
  intro v hv b
  have hlo : b.lower ^ 2 < v * 2 ^ 16 := sqrtBracket_lower_sq_lt hv
  have hup : (v + 1) * 2 ^ 16 ≤ b.upper ^ 2 := succ_mul_le_sqrtBracket_upper_sq v
  refine ⟨hlo, by omega, fixMul_self_lt_iff.2 ?_, lt_fixMul_self_iff.2 ?_, sqrtBracket_width (Nat.succ_pos _)⟩
  · exact_mod_cast hlo
  · exact_mod_cast hup

/-- A bisection whose bounds are adjacent has come to its end. -/
theorem Bisects.eq_cand_of_adjacent {v lower upper cand result : Int} (h : Bisects v lower upper cand result)
    (hadj : upper = lower + 1) : result = cand := by
  cases h with
  | adjacent => rfl
  | hit _ _ _ _ hne | tooHigh _ _ _ _ _ hne | tooLow _ _ _ _ _ hne => exact absurd hadj hne

/-- The midpoint of a bracket at least 2 wide lies strictly inside it. -/
theorem midpoint_mem {lower upper : Int} (hw : lower < upper) (hne : upper ≠ lower + 1) :
    lower < (upper + lower) / 2 ∧ (upper + lower) / 2 < upper := by omega

/-- How a bisection ends that starts with its lower bound below the root and computes a midpoint, or has just done so:
at a midpoint that matches, or at one of two adjacent numbers, the lower one still below the root and the upper one
either the first upper bound or above the root. -/
theorem Bisects.hit_or_adjacent {v lower upper cand result : Int} (h : Bisects v lower upper cand result)
    (h0 : 0 ≤ lower) (hw : lower < upper) (hlo : lower ^ 2 < v * 65536)
    (hc : upper = lower + 1 → cand = lower ∨ cand = upper) :
    (0 ≤ result ∧ fixMul result result = v) ∨
    ∃ l, 0 ≤ l ∧ l ^ 2 < v * 65536 ∧ (l + 1 = upper ∨ v * 65536 < (l + 1) ^ 2) ∧
      (result = l ∨ result = l + 1) := by
  induction h with
  | adjacent lower cand => exact .inr ⟨lower, h0, hlo, .inl rfl, hc rfl⟩
  | hit lower upper cand mid hne hmid heq =>
    subst hmid
    exact .inl ⟨h0.trans (midpoint_mem hw hne).1.le, heq⟩
  | tooHigh lower upper cand mid result hne hmid hgt _ ih =>
    subst hmid
    have hmem := midpoint_mem hw hne
    rcases ih h0 hmem.1 hlo (fun _ => .inr rfl) with hhit | ⟨l, hl0, hl, hup, hres⟩
    · exact .inl hhit
    · refine .inr ⟨l, hl0, hl, .inr (hup.elim (fun e => ?_) id), hres⟩
      have hsq := lt_fixMul_self_iff.1 hgt
      rw [e]; linarith
  | tooLow lower upper cand mid result hne hmid hlt _ ih =>
    subst hmid
    have hmem := midpoint_mem hw hne
    exact ih (h0.trans hmem.1.le) hmem.2 (fixMul_self_lt_iff.1 hlt) (fun _ => .inl rfl)

/-- `Nat.sqrt` of a number is the integer part of its root, also when that is given as an integer. -/
theorem eq_sqrt_of_sq_le_of_lt {l : Int} {n : Nat} (h0 : 0 ≤ l) (h1 : l ^ 2 ≤ n) (h2 : n < (l + 1) ^ 2) :
    l = Nat.sqrt n := by
  lift l to Nat using h0
  exact congrArg _ (Nat.eq_sqrt'.2 ⟨by exact_mod_cast h1, by exact_mod_cast h2⟩)

/-- Off the table, from a bracket that encloses the root strictly and is at least 2 wide: the bisection matches the
input at a number that is not negative, or ends next to the root (R55, R59). -/
theorem sqrtNonneg_hit_or_nextToRoot {bracket : Nat → Bracket} (rom : Vector XWord 128) {v : Nat}
    (ht : isTableInput v = false) (hlo : (bracket (msbpos v)).lower ^ 2 < v * 2 ^ 16)
    (hup : v * 2 ^ 16 < (bracket (msbpos v)).upper ^ 2)
    (hw : (bracket (msbpos v)).lower + 1 < (bracket (msbpos v)).upper) :
    (0 ≤ sqrtNonneg bracket rom v ∧ fixMul (sqrtNonneg bracket rom v) (sqrtNonneg bracket rom v) = v) ∨
    sqrtNonneg bracket rom v = Nat.sqrt (v * 2 ^ 16) ∨ sqrtNonneg bracket rom v = Nat.sqrt (v * 2 ^ 16) + 1 := by
  have hb := sqrtNonneg_bisects (bracket := bracket) (rom := rom) ht
  rcases hb.hit_or_adjacent (Int.natCast_nonneg _) (by omega) (by exact_mod_cast hlo) (fun h => by omega) with
    hhit | ⟨l, hl0, hl, hlup, hres⟩
  · exact .inl hhit
  · have hlt : (v * 65536 : Int) < (l + 1) ^ 2 := hlup.elim (fun e => by rw [e]; exact_mod_cast hup) id
    have hroot : l = Nat.sqrt (v * 2 ^ 16) :=
      eq_sqrt_of_sq_le_of_lt hl0 (by push_cast; exact hl.le) (by push_cast; exact hlt)
    rw [← hroot]
    exact .inr hres

/-- Settles O49: the two ways the bisection ends. -/
theorem sqrtMatchesOrIsNextToRoot : Obligations.SqrtMatchesOrIsNextToRoot := by
  intro bracket rom v ht hlo hup hw c
  have hend := sqrtNonneg_hit_or_nextToRoot rom ht hlo hup hw
  rw [← fixSqrt_nonneg] at hend
  exact hend.imp And.right id

/-- From 0.25 upward a number whose fixed-point square is the input is next to the root: the square of one further up
is already `2^16` too large (R59 (a)). -/
theorem nextToRoot_of_fixMul_self_eq {v : Nat} (hv : 2 ^ 14 ≤ v) {c : Int} (hc : 0 ≤ c) (h : fixMul c c = v) :
    c = Nat.sqrt (v * 2 ^ 16) ∨ c = Nat.sqrt (v * 2 ^ 16) + 1 := by
  lift c to Nat using hc
  obtain ⟨h1, h2⟩ := fixMul_self_eq_iff.1 h
  norm_cast at h1 h2 ⊢
  have hq : 2 ^ 15 ≤ Nat.sqrt (v * 2 ^ 16) := Nat.le_sqrt'.2 (by omega)
  have hlt : v * 2 ^ 16 < (Nat.sqrt (v * 2 ^ 16) + 1) ^ 2 := Nat.lt_succ_sqrt' _
  have hge : Nat.sqrt (v * 2 ^ 16) ≤ c := (Nat.sqrt_le_sqrt h1).trans_eq (Nat.sqrt_eq' c)
  have hle : c < Nat.sqrt (v * 2 ^ 16) + 2 := by
    refine lt_of_pow_lt_pow_left₀ 2 (Nat.zero_le _) ?_
    linarith
  omega

/-- Settles O50: a match is next to the root as well. -/
theorem sqrtIsWithinOneUnit : Obligations.SqrtIsWithinOneUnit := by
  intro bracket rom v hv ht hlo hup hw
  rw [fixSqrt_nonneg]
  exact (sqrtNonneg_hit_or_nextToRoot rom ht hlo hup hw).elim (fun h => nextToRoot_of_fixMul_self_eq hv h.1 h.2) id

/-- Off the table and up to `2^63`, from a bracket whose lower bound is below the root, the bisection ends below
`2^40`. -/
theorem natAbs_sqrtNonneg_lt {bracket : Nat → Bracket} (rom : Vector XWord 128) {v : Nat} (hv : v ≤ 2 ^ 63)
    (ht : isTableInput v = false) (hlo : (bracket (msbpos v)).lower ^ 2 < v * 2 ^ 16) :
    (sqrtNonneg bracket rom v).natAbs < 2 ^ 40 := by
  have hb := sqrtNonneg_bisects (bracket := bracket) (rom := rom) ht
  have hw := (bracket (msbpos v)).width_pos
  by_cases hadj : ((bracket (msbpos v)).upper : Int) = (bracket (msbpos v)).lower + 1
  · rw [hb.eq_cand_of_adjacent hadj]; decide
  · rcases hb.hit_or_adjacent (Int.natCast_nonneg _) (by omega) (by exact_mod_cast hlo) (absurd · hadj) with
      ⟨h0, hhit⟩ | ⟨l, hl0, hl, -, hres⟩
    · have hsq := (fixMul_self_eq_iff.1 hhit).2
      have : sqrtNonneg bracket rom v < 2 ^ 40 := lt_of_pow_lt_pow_left₀ 2 (by decide) (by omega)
      omega
    · have : l < 2 ^ 40 - 1 := lt_of_pow_lt_pow_left₀ 2 (by decide) (by omega)
      omega

/-- `Sqrt` has the magnitude of `Sqrt` of the magnitude (R55). -/
theorem natAbs_fixSqrt (bracket : Nat → Bracket) (rom : Vector XWord 128) (v : Int) :
    (fixSqrt bracket rom v).natAbs = (sqrtNonneg bracket rom v.natAbs).natAbs := by
  unfold fixSqrt
  split
  · rw [Int.natAbs_neg, show (-v).toNat = v.natAbs by omega]
  · rw [show v.toNat = v.natAbs by omega]

/-- Settles O51: the magnitude of a register is at most `2^63`, and a root below `2^40` fits 64 bits. -/
theorem fsqrtResultIsBelow2Pow40 : Obligations.FsqrtResultIsBelow2Pow40 := by
  intro s rd rs1 ht ⟨hlo, _⟩
  have hfit : (s.reg rs1).toInt.natAbs ≤ 2 ^ 63 := by
    have := fits_toInt (s.reg rs1)
    unfold Fits at this; omega
  have hroot := natAbs_sqrtNonneg_lt s.rom hfit ht hlo
  rw [← natAbs_fixSqrt] at hroot
  have hval := toInt_reg_setInt_of_fits (v := fixSqrt (bracketRead s.brackets) s.rom (s.reg rs1).toInt)
    (by unfold Fits; omega) s rd
  exact ⟨_, exec_fsqrt rd rs1 s, hval, hval.symm ▸ hroot⟩

end Sys2Proof.Machine
end

section
/-! PROOFS. FPOW (R57, R58): the power loop is the accumulation step by step, its error term stays below one unit of
scale, and `Pow` is the accumulated pair with the error term rounded in. -/

namespace Sys2Proof.Machine

/-- A step's remainder is below the scale, whatever the pair it starts from. -/
theorem natAbs_powStep_err_lt (base : Int) (p : Int × Int) : (powStep base p).2.natAbs < 2 ^ 16 := by
  rw [powStep, Int.natAbs_tmod]
  exact Nat.mod_lt _ (by decide)

theorem powAcc_succ (base : Int) (j : Nat) : powAcc base (j + 1) = powStep base (powAcc base j) :=
  Function.iterate_succ_apply' _ j _

/-- The error term is below one unit of scale after every number of steps (R57). -/
theorem natAbs_powAcc_err_lt (base : Int) (j : Nat) : (powAcc base j).2.natAbs < 2 ^ 16 := by
  cases j with
  | zero => exact Nat.two_pow_pos 16
  | succ j => rw [powAcc_succ]; exact natAbs_powStep_err_lt base _

/-- When not every running result fits, the power loop ends without a result. -/
theorem powLoop_of_not_fits {base : Int} {m : Nat} {p : Int × Int}
    (h : ¬ ∀ j, 1 ≤ j → j ≤ m → Fits ((powStep base)^[j] p).1) : powLoop base m p = none := by
  push Not at h
  obtain ⟨j, h1, h2, hj⟩ := h
  exact powLoop_overflow h1 h2 hj

/-- Whatever pair the power loop answers is the accumulated one. -/
theorem powLoop_some {base : Int} {m : Nat} {p q : Int × Int} (h : powLoop base m p = some q) :
    q = (powStep base)^[m] p := by
  by_cases hfit : ∀ j, 1 ≤ j → j ≤ m → Fits ((powStep base)^[j] p).1
  · exact Option.some.inj (h.symm.trans (powLoop_fits hfit))
  · cases h.symm.trans (powLoop_of_not_fits hfit)

/-- Settles O55: a step splits `t` into quotient and remainder, and the loop's pair is the accumulated one. -/
theorem powErrorTermIsBelowScale : Obligations.PowErrorTermIsBelowScale := by
  refine ⟨fun base p q h => ?_, fun base e q h => ?_⟩
  · obtain ⟨rfl, hfit⟩ := powNext_some h
    exact ⟨Int.mul_tdiv_add_tmod _ _, natAbs_powStep_err_lt base p, hfit⟩
  · rw [powLoop_some h]
    exact natAbs_powAcc_err_lt base e

/-- Rounding an error term adds one unit from half the scale on, away from zero, and nothing below (R57). -/
theorem fixRound_of_natAbs_lt {err : Int} (h : err.natAbs < 2 ^ 16) :
    fixRound err = if 32768 ≤ err then 1 else if err ≤ -32768 then -1 else 0 := by
  rw [fixRound_eq_sign_mul]
  split
  · rw [Int.sign_eq_one_of_pos (by omega)]; omega
  · split
    · rw [Int.sign_eq_neg_one_of_neg (by omega)]; omega
    · rw [Nat.div_eq_of_lt (by omega)]; exact mul_zero _

/-- The base and the number of steps of the accumulation: the reciprocal for a negative exponent, and the exponent's
magnitude (R57). -/
theorem powOperands_eq (base e : Int) :
    powOperands base e = (if e < 0 then (2 ^ 32 : Int).tdiv base else base, e.natAbs) := by
  unfold powOperands
  split
  · rw [show (-e).toNat = e.natAbs by omega]; rfl
  · rw [show e.toNat = e.natAbs by omega]

section NonzeroBase
variable {base e b : Int} {m : Nat} (hb : base ≠ 0) (hp : powOperands base e = (b, m))
include hb hp

/-- With every running result within 64 bits, `Pow` is the accumulated result with the error term rounded in (R57). -/
theorem fixPow_of_fits (h : ∀ j, 1 ≤ j → j ≤ m → Fits (powAcc b j).1) :
    fixPow base e = some (powOut b m) := by
  have hloop : powLoop b m (Config.one, 0) = some (powAcc b m) := powLoop_fits h
  rw [powOut, ← fixRound_of_natAbs_lt (natAbs_powAcc_err_lt b m), fixPow, if_neg hb]
  simp only [hp, hloop]

/-- With a running result outside 64 bits, `Pow` ends without a result (R57). -/
theorem fixPow_of_not_fits (h : ¬ ∀ j, 1 ≤ j → j ≤ m → Fits (powAcc b j).1) : fixPow base e = none := by
  have hloop : powLoop b m (Config.one, 0) = none := powLoop_of_not_fits h
  rw [fixPow, if_neg hb]
  simp only [hp, hloop]

end NonzeroBase

/-- FPOW is the end of a fixed-point command on `Pow` (R58). -/
theorem exec_fpow (rd rs1 rs2 : RegIdx) (s : State) : exec (.fpow rd rs1 rs2) s =
    finish s rd (encode (.fpow rd rs1 rs2)) (fixPow (s.reg rs1).toInt (s.reg rs2).toInt) := rfl

/-- Settles O52: base 0 before all else, then `Pow` as the accumulation gives it. -/
theorem fpowAccumulatesOrOverflows : Obligations.FpowAccumulatesOrOverflows := by
  intro s rd rs1 rs2 base e b m w
  have hp : powOperands base e = (b, m) := powOperands_eq base e
  rw [exec_fpow]
  refine ⟨(encode_legal (.fpow rd rs1 rs2)).2.2, fun h0 => ?_, fun hb hacc hout => ?_, fun hb h => ?_⟩
  · have hzero : fixPow base e = some 0 := if_pos h0
    obtain ⟨t, he, hval, hframe⟩ := finish_writes fits_zero s rd w
    exact ⟨t, hzero ▸ he, BitVec.eq_of_toInt_eq hval, hframe⟩
  · rw [fixPow_of_fits hb hp hacc]
    exact finish_writes hout s rd w
  · by_cases hacc : ∀ j, 1 ≤ j → j ≤ m → Fits (powAcc b j).1
    · rw [fixPow_of_fits hb hp hacc]
      exact finish_faults (h.resolve_left fun ⟨j, h1, h2, hj⟩ => hj (hacc j h1 h2)) s rd w
    · rw [fixPow_of_not_fits hb hp hacc]
      exact finish_none s rd w

/-- Settles O53: no step is made from (1.0, 0), so the result is 1.0. -/
theorem fpowZeroExponentGivesOne : Obligations.FpowZeroExponentGivesOne := by
  intro s rd rs1 rs2 hbase hexp
  have hb : (s.reg rs1).toInt ≠ 0 := fun h => hbase (BitVec.eq_of_toInt_eq h)
  have he : (s.reg rs2).toInt = 0 := by rw [hexp]; rfl
  have hpow : fixPow (s.reg rs1).toInt 0 = some 65536 := fixPow_of_fits hb (powOperands_eq _ 0) (by omega)
  rw [exec_fpow, he, hpow]
  obtain ⟨t, ht, hval, hframe⟩ := finish_writes (v := 65536) ⟨by decide, by decide⟩ s rd _
  exact ⟨t, ht, BitVec.eq_of_toInt_eq hval, hframe⟩

/-- Two numbers of steps that reach the same pair stay together from there on (R58). -/
theorem powAcc_add_eq {base : Int} {i j : Nat} (h : powAcc base i = powAcc base j) (c : Nat) :
    powAcc base (i + c) = powAcc base (j + c) := by
  rw [powAcc, powAcc, Nat.add_comm i, Nat.add_comm j, Function.iterate_add_apply, Function.iterate_add_apply]
  exact congrArg _ h

/-- Where `i` and `j` steps reach the same pair and the first `j` steps fit, `j + c` steps fit as far as `i + c` do. -/
theorem fits_powAcc_of_repeat {base : Int} {i j c : Nat} (h : powAcc base i = powAcc base j)
    (hj : ∀ m, 1 ≤ m → m ≤ j → Fits (powAcc base m).1)
    (hi : ∀ m, 1 ≤ m → m ≤ i + c → Fits (powAcc base m).1) :
    ∀ m, 1 ≤ m → m ≤ j + c → Fits (powAcc base m).1 := by
  intro m h1 h2
  rcases Nat.lt_or_ge j m with hm | hm
  · obtain ⟨d, rfl⟩ := Nat.exists_eq_add_of_lt hm
    rw [Nat.add_assoc, ← powAcc_add_eq h]
    exact hi _ (by omega) (by omega)
  · exact hj m h1 hm

/-- Settles O54: both exponents go through the same pairs, so they fit or overflow together. -/
theorem fpowRepeatedPairRepeatsResult : Obligations.FpowRepeatedPairRepeatsResult := by
  intro base i j hb hpair hfit c
  have hfi (m : Nat) (h1 : 1 ≤ m) (h2 : m ≤ i) := hfit m h1 (.inl h2)
  have hfj (m : Nat) (h1 : 1 ≤ m) (h2 : m ≤ j) := hfit m h1 (.inr h2)
  have hop (n : Nat) : powOperands base (n : Int) = (base, n) := powOperands_eq base n
  by_cases hall : ∀ m, 1 ≤ m → m ≤ i + c → Fits (powAcc base m).1
  · rw [fixPow_of_fits hb (hop _) hall, fixPow_of_fits hb (hop _) (fits_powAcc_of_repeat hpair hfj hall), powOut,
      powOut, powAcc_add_eq hpair]
  · rw [fixPow_of_not_fits hb (hop _) hall,
      fixPow_of_not_fits hb (hop _) (mt (fits_powAcc_of_repeat hpair.symm hfi) hall)]

end Sys2Proof.Machine
end

section
/-! PROOFS. What becomes of STATUS at a fault (R62) and after one (R63, R64): commands and issues that take a fault, then
the operations of the port while a fault is latched. -/

namespace Sys2Proof.Machine

/-- A command after which a fault is latched that was not latched before took one its opcode may raise, and did nothing
else. -/
theorem exec_raises {i : Instr} {s t : State} (h : exec i s = .next t) (hs : s.fault = false) (ht : t.fault = true) :
    ∃ c, mayRaise i c = true ∧ t = s.raise c (encode i) :=
  (exec_next_cases h).resolve_left fun hq => absurd (ht.symm.trans (hq.fault.trans hs)) (by decide)

/-- An issue that latches a fault records a cause its word can raise and that word: a word that decodes is the word of its
command, and one that does not faults ILLEGAL. -/
theorem hostIssue_raises {w : Cmd} {s t : State} (h : hostIssue w s = .next t) (hs : s.fault = false)
    (ht : t.fault = true) : ∃ c, CausedBy c w ∧ t = (s.withReply none).raise c w := by
  rcases hostIssue_cases w s with ⟨hf, -⟩ | ⟨-, i, hd, he⟩ | ⟨-, e, hd, he⟩
  · exact absurd (hf.symm.trans hs) (by decide)
  · obtain ⟨c, hc, rfl⟩ := exec_raises (he.symm.trans h) hs ht
    exact ⟨c, by rw [CausedBy, hd]; exact hc, by rw [encodeOfDecodedWordGivesWord w i hd]⟩
  · cases he.symm.trans h
    exact ⟨.illegal, by rw [CausedBy, hd], rfl⟩

/-- Settles O14: an idle step, an access and a reset latch no fault, so the operation was an issue. -/
theorem faultIsPrecise : Obligations.FaultIsPrecise := by
  intro s t hs h ht
  have hno : t.fault ≠ false := by simp [ht]
  cases hp : s.port with
  | nil => cases (step_idle hp).symm.trans h; exact absurd hs hno
  | cons op rest =>
    have hop : perform op (s.withPort rest) = .next t := (step_perform hp).symm.trans h
    rcases op.isAccess_or_issue_or_reset with ha | ⟨w, rfl⟩ | rfl
    · obtain ⟨x, r, he⟩ := perform_access ha (s.withPort rest)
      cases he.symm.trans hop; exact absurd hs hno
    · obtain ⟨c, hc, rfl⟩ := hostIssue_raises hop hs ht
      exact ⟨w, rest, c, rfl, hc, rfl⟩
    · cases hop; exact absurd rfl hno

/-- While a fault is latched every issue is ignored, and returns nothing to the host (R63). -/
theorem hostIssue_ignored {s : State} (hf : s.fault = true) (w : Cmd) : hostIssue w s = .next (s.withReply none) := by
  simp [hostIssue, hf]

/-- While a fault is latched every operation but a reset leaves FAULT, CAUSE and FCMD as they are. -/
theorem perform_keeps_fault {op : HostOp} {s t : State} (hf : s.fault = true) (hop : op ≠ .reset)
    (h : perform op s = .next t) : t.fault = true ∧ t.cause = s.cause ∧ t.fcmd = s.fcmd := by
  rcases op.isAccess_or_issue_or_reset with ha | ⟨w, rfl⟩ | rfl
  · obtain ⟨x, r, he⟩ := perform_access ha s
    cases he.symm.trans h; exact ⟨hf, rfl, rfl⟩
  · cases (hostIssue_ignored hf w).symm.trans h; exact ⟨hf, rfl, rfl⟩
  · exact absurd rfl hop

/-- Settles O15: a reset leaves the reset values from any state; every other operation, and an idle step, keeps the
latched fault. -/
theorem onlyResetClearsFault : Obligations.OnlyResetClearsFault := by
  intro s t hf h
  constructor
  · rintro ⟨rest, hp⟩
    cases (step_perform hp).symm.trans h
    exact ⟨rfl, rfl, rfl, fun _ => rfl, fun _ => rfl⟩
  · intro hne
    cases hp : s.port with
    | nil => cases (step_idle hp).symm.trans h; exact ⟨hf, rfl, rfl⟩
    | cons op rest =>
      have hop : op ≠ .reset := fun e => hne rest (e ▸ hp)
      exact perform_keeps_fault (s := s.withPort rest) hf hop ((step_perform hp).symm.trans h)

/-- Settles O9: an issue is ignored, and the four accesses do what they do in every state. -/
theorem faultedBlockIgnoresIssuesOnly : Obligations.FaultedBlockIgnoresIssuesOnly := by
  intro s rest hf
  obtain ⟨hwrite, hread, hstatus, hstream, -⟩ := hostAccessesDoWhatTheTableSays s rest
  exact ⟨fun w hp => (step_perform hp).trans (hostIssue_ignored (s := s.withPort rest) hf w), hwrite, hread, hstatus,
    hstream⟩

end Sys2Proof.Machine
end

section
/-! PROOFS. What power-on and a reset leave (R70): power-on is a reset with the default ROM and brackets, so what holds
after every reset holds at power-on. -/

namespace Sys2Proof.Machine

/-- The power-on state is one that a reset leaves: clearing it changes nothing. -/
theorem State.clear_reset : State.reset.clear = State.reset := rfl

/-- After a reset every field of STATUS is 0, and so is the number they make up (R14). -/
@[simp] theorem State.status_clear (s : State) : s.clear.status = 0 := by
  apply BitVec.eq_of_toNat_eq
  rw [statusWordHasItsFields]
  simp

/-- A step whose operation is a reset completes, in the cleared state with the rest of the port (R70; log 16). -/
theorem step_reset {s : State} {rest : List HostOp} (hp : s.port = .reset :: rest) :
    step s = .next (s.withPort rest).clear :=
  step_perform hp

/-- Settles O12: the values after any reset, read at power-on and after a `HostReset`; the ROM is not part of them. -/
theorem resetLeavesZeros : Obligations.ResetLeavesZeros := by
  unfold Obligations.ResetLeavesZeros
  rw [← State.clear_reset]
  refine ⟨State.reg_clear _, State.stream_clear _, State.isSeeded_clear _, State.clear_fault _, State.clear_cause _,
    State.clear_fcmd _, State.status_clear _, fun s rest hp => ?_⟩
  exact ⟨_, step_reset hp, State.reg_clear _, State.stream_clear _, State.isSeeded_clear _, State.clear_fault _,
    State.clear_cause _, State.clear_fcmd _, State.status_clear _, fun _ => rfl⟩

/-- Settles O22: power-on is the state after a reset, which has `Inv`. -/
theorem resetHasInvariant : Obligations.ResetHasInvariant := by
  unfold Obligations.ResetHasInvariant
  rw [← State.clear_reset]
  exact inv_clear State.reset

end Sys2Proof.Machine
end

section
/-! PROOFS. The default parameters (R21, R55; log 5, log 6) and the idle step (log 1). A ROM entry is the nearest root of its
number: that half a unit to its left and half a unit to its right enclose the root is checked entry by entry, and the
rounding formula of R21 follows for every number that is enclosed so. -/

namespace Sys2Proof.Machine

/-- Settles O8: a step that finds no operation at the port has nothing to perform. -/
theorem emptyPortStepIsIdle : Obligations.EmptyPortStepIsIdle := fun _ hp => step_idle hp

/-- Settles O58: a position from 1 to 64 reads its own entry of the default table, which holds the formula. -/
theorem resetHoldsDefaultBrackets : Obligations.ResetHoldsDefaultBrackets := by
  intro m hm hm64
  have hread : bracketRead State.reset.brackets m = Config.sqrtBracket m := bracketRead_default m hm hm64
  rw [hread]
  exact ⟨rfl, rfl⟩

/-- A number `r` with `r - 1/2 ≤ √n < r + 1/2` is what R21's formula rounds `√n` to, from its floor `Nat.sqrt n`. -/
theorem eq_rounded_sqrt_of_enclosed {n r : Nat} (hlow : (2 * r - 1) ^ 2 ≤ 4 * n) (hhigh : 4 * n < (2 * r + 1) ^ 2) :
    r = if (2 * n.sqrt + 1) ^ 2 ≤ 4 * n then n.sqrt + 1 else n.sqrt := by
  have hfloor : (2 * n.sqrt) ^ 2 ≤ 4 * n := by nlinarith [Nat.sqrt_le' n]
  have hceil : 4 * n < (2 * n.sqrt + 2) ^ 2 := by nlinarith [Nat.lt_succ_sqrt' n]
  split
  case isTrue hhalf =>
    have hle : 2 * r - 1 < 2 * n.sqrt + 2 := lt_of_pow_lt_pow_left' 2 (hlow.trans_lt hceil)
    have hge : 2 * n.sqrt + 1 < 2 * r + 1 := lt_of_pow_lt_pow_left' 2 (hhalf.trans_lt hhigh)
    omega
  case isFalse hhalf =>
    have hle : 2 * r - 1 < 2 * n.sqrt + 1 := lt_of_pow_lt_pow_left' 2 (hlow.trans_lt (Nat.lt_of_not_le hhalf))
    have hge : 2 * n.sqrt < 2 * r + 1 := lt_of_pow_lt_pow_left' 2 (hfloor.trans_lt hhigh)
    omega

/-- Every ROM entry at power-on is within half a unit of the root of its number, scaled by `2 ^ 32`. -/
theorem reset_rom_encloses_root : ∀ k : Fin 128,
    (2 * (romRead State.reset.rom k).toNat - 1) ^ 2 ≤ 4 * (k.val * 2 ^ 32) ∧
    4 * (k.val * 2 ^ 32) < (2 * (romRead State.reset.rom k).toNat + 1) ^ 2 := by
  decide

/-- Settles O17: the floor of the root is `Nat.sqrt`, and each entry lies within half a unit of the root. -/
theorem resetRomHoldsNearestRoots : Obligations.ResetRomHoldsNearestRoots := by
  intro k
  obtain ⟨hlow, hhigh⟩ := reset_rom_encloses_root k
  exact ⟨(k.val * 2 ^ 32).sqrt, Nat.sqrt_le _, Nat.lt_succ_sqrt _, eq_rounded_sqrt_of_enclosed hlow hhigh⟩

end Sys2Proof.Machine
end
